-- ==== Sys2Proof/Word.lean ====
section
/-! DEFINITION. The word types of the fp48 codec block and the plainest packing of fields (00_scope.md R9, R10, R13). -/

namespace Sys2Proof

/-- A PackedFloat48: sign (bit 47), mantissa (bits 46:8), exponent (bits 7:0) (10_state.md R28). -/
abbrev Packed := BitVec 48

/-- A binary32 pattern (00_scope.md R19). -/
abbrev Binary32 := BitVec 32

/-- A binary64 pattern (00_scope.md R19). -/
abbrev Binary64 := BitVec 64

/-- The width of `req_a` and of `rsp_data` (00_scope.md R10). -/
abbrev Data := BitVec 64

/-- `req_op` (00_scope.md R10). -/
abbrev OpSelect := BitVec 4

/-- `rsp_status` (00_scope.md R10, 60_exceptions.md R170). -/
abbrev StatusCode := BitVec 3

/-- A byte of a stored PackedFloat48 (20_memory.md R41). -/
abbrev Byte := BitVec 8

/-- One request as a word, `{req_op, req_a, req_b}`: bits 115:112, 111:48 and 47:0 (30_encoding.md R60). -/
abbrev RequestWord := BitVec 116

end Sys2Proof
end

