-- ==== Sys2Proof/Machine/Operands.lean ====
section
/-! DEFINITION. Operand assembly (30_encoding.md R60, R62): the ports of a request word, and the operand each operation takes from them. -/

namespace Sys2Proof.Machine

/-- The request word `{req_op, req_a, req_b}` of three port values (30_encoding.md R60). -/
def requestWord (op : OpSelect) (a : Data) (b : Packed) : RequestWord := op ++ a ++ b

/-- `req_op`, bits 115:112 of the request word (30_encoding.md R60). -/
def reqOp (w : RequestWord) : OpSelect := w.extractLsb' 112 4

/-- `req_a`, bits 111:48 of the request word (30_encoding.md R60). -/
def reqA (w : RequestWord) : Data := w.extractLsb' 48 64

/-- `req_b`, bits 47:0 of the request word (30_encoding.md R60). -/
def reqB (w : RequestWord) : Packed := w.extractLsb' 0 48

/-- The binary32 operand `req_a[31:0]` of ENC32 (30_encoding.md R62). -/
def operandF32 (a : Data) : Binary32 := a.extractLsb' 0 32

/-- The binary64 operand `req_a[63:0]` of ENC64 (30_encoding.md R62). -/
def operandF64 (a : Data) : Binary64 := a

/-- The PackedFloat48 operand `req_a[47:0]` (30_encoding.md R62). -/
def operandP (a : Data) : Packed := a.extractLsb' 0 48

/-- The second PackedFloat48 operand, `req_b[47:0]` (30_encoding.md R62). -/
def operandQ (b : Packed) : Packed := b

end Sys2Proof.Machine
end

