-- ==== Sys2Proof/Syntax.lean ====
section
/-! DEFINITION. The operations of the block: one constructor for each row of spec/opcode_table.json. -/

namespace Sys2Proof

/-- One request, with the operand bits its operation reads (30_encoding.md R61, R62). A bit an operation ignores is no part
of the instruction: the decoder drops it (log 9). -/
inductive Instr where
  /-- req_op 0x0, binary32 `f` to PackedFloat48 (40_encode.md R80). -/
  | enc32 (f : Binary32)
  /-- req_op 0x1, binary64 `d` to PackedFloat48 (40_encode.md R81). -/
  | enc64 (d : Binary64)
  /-- req_op 0x2, PackedFloat48 to binary32 (41_decode.md R100). -/
  | dec32 (p : Packed)
  /-- req_op 0x3, PackedFloat48 to binary64 (41_decode.md R101). -/
  | dec64 (p : Packed)
  /-- req_op 0x4, ZERO or NORMAL (41_decode.md R102). -/
  | classify (p : Packed)
  /-- req_op 0x5, unary plus (43_arith.md R140). -/
  | pos (p : Packed)
  /-- req_op 0x6, unary minus (43_arith.md R141). -/
  | neg (p : Packed)
  /-- req_op 0x7, the four-way relation of `a` to `b` (42_compare.md R121). -/
  | cmp (a b : Packed)
  /-- req_op 0x8, `a < b` (42_compare.md R122). -/
  | cmplt (a b : Packed)
  /-- req_op 0x9, `a > b` (42_compare.md R123). -/
  | cmpgt (a b : Packed)
  /-- req_op 0xA, `a + b` (43_arith.md R143). -/
  | add (a b : Packed)
  /-- req_op 0xB, `a - b` (43_arith.md R144). -/
  | sub (a b : Packed)
  /-- req_op 0xC, `a * b` (43_arith.md R145). -/
  | mul (a b : Packed)
  /-- req_op 0xD, `a / b` (43_arith.md R146). -/
  | div (a b : Packed)
  /-- req_op 0xE, reserved: no operand is examined (30_encoding.md R64). -/
  | reservedE
  /-- req_op 0xF, reserved: no operand is examined (30_encoding.md R64). -/
  | reservedF
deriving DecidableEq, Repr

end Sys2Proof
end

