-- ==== Sys2Proof/WellFormed.lean ====
section
/-! DEFINITION. Well-formedness. An instruction's operands are taken whole from a port and their types carry their widths, so
the spec leaves no ill-formed instruction: `Exec` is total over the 2^116 requests (30_encoding.md R62, R66), and bits an
operation ignores never make a request illegal (R64). What can be ill-formed is a number offered as a request word: a
request is 116 bits long and has no other length (R60, R65). -/

namespace Sys2Proof

/-- Every instruction of the table is well-formed (30_encoding.md R64, R66). -/
def Instr.wellFormed : Instr → Bool
  | .enc32 _ => true
  | .enc64 _ => true
  | .dec32 _ => true
  | .dec64 _ => true
  | .classify _ => true
  | .pos _ => true
  | .neg _ => true
  | .cmp _ _ => true
  | .cmplt _ _ => true
  | .cmpgt _ _ => true
  | .add _ _ => true
  | .sub _ _ => true
  | .mul _ _ => true
  | .div _ _ => true
  | .reservedE => true
  | .reservedF => true

/-- A number is a request word when it fits in 116 bits (30_encoding.md R60, R65). -/
def isRequestWord (w : Nat) : Bool := decide (w < 2 ^ 116)

end Sys2Proof
end

