-- ==== Sys2Proof/Decode.lean ====
section
/-! DEFINITION. The decoder, the encoder, and the opcode table's own numbering of a word (30_encoding.md R60 to R66). -/

namespace Sys2Proof

open Sys2Proof.Machine

/-- Why a number is no request. -/
inductive DecodeRefusal where
  /-- It has bits above bit 115 (30_encoding.md R60, R65). Raised by `decodeNat`; safe. -/
  | widerThanRequest
deriving DecidableEq, Repr

/-- The operation map (30_encoding.md R61, R66) over the three ports, with the operands R62 assembles. It is total: the last
case is 0xF, the one value of 4 bits left. -/
def decodePorts (op : OpSelect) (a : Data) (b : Packed) : Instr :=
  match op.toNat with
  | 0x0 => .enc32 (operandF32 a)
  | 0x1 => .enc64 (operandF64 a)
  | 0x2 => .dec32 (operandP a)
  | 0x3 => .dec64 (operandP a)
  | 0x4 => .classify (operandP a)
  | 0x5 => .pos (operandP a)
  | 0x6 => .neg (operandP a)
  | 0x7 => .cmp (operandP a) (operandQ b)
  | 0x8 => .cmplt (operandP a) (operandQ b)
  | 0x9 => .cmpgt (operandP a) (operandQ b)
  | 0xA => .add (operandP a) (operandQ b)
  | 0xB => .sub (operandP a) (operandQ b)
  | 0xC => .mul (operandP a) (operandQ b)
  | 0xD => .div (operandP a) (operandQ b)
  | 0xE => .reservedE
  | _ => .reservedF

/-- The instruction of a request word. -/
def decode (w : RequestWord) : Instr := decodePorts (reqOp w) (reqA w) (reqB w)

/-- Decoding of any number: refused by name when it is wider than a request (30_encoding.md R60, R65). -/
def decodeNat (w : Nat) : Except DecodeRefusal Instr :=
  if isRequestWord w then .ok (decode (BitVec.ofNat 116 w)) else .error .widerThanRequest

/-- `req_op` of an instruction (30_encoding.md R61). -/
def Instr.opcode : Instr → OpSelect
  | .enc32 _ => 0x0
  | .enc64 _ => 0x1
  | .dec32 _ => 0x2
  | .dec64 _ => 0x3
  | .classify _ => 0x4
  | .pos _ => 0x5
  | .neg _ => 0x6
  | .cmp _ _ => 0x7
  | .cmplt _ _ => 0x8
  | .cmpgt _ _ => 0x9
  | .add _ _ => 0xA
  | .sub _ _ => 0xB
  | .mul _ _ => 0xC
  | .div _ _ => 0xD
  | .reservedE => 0xE
  | .reservedF => 0xF

/-- `req_a` of an instruction: its first operand in the low bits, and 0 in the bits it ignores (30_encoding.md R62, log 9). -/
def Instr.portA : Instr → Data
  | .enc32 f => f.setWidth 64
  | .enc64 d => d
  | .dec32 p => p.setWidth 64
  | .dec64 p => p.setWidth 64
  | .classify p => p.setWidth 64
  | .pos p => p.setWidth 64
  | .neg p => p.setWidth 64
  | .cmp a _ => a.setWidth 64
  | .cmplt a _ => a.setWidth 64
  | .cmpgt a _ => a.setWidth 64
  | .add a _ => a.setWidth 64
  | .sub a _ => a.setWidth 64
  | .mul a _ => a.setWidth 64
  | .div a _ => a.setWidth 64
  | .reservedE => 0
  | .reservedF => 0

/-- `req_b` of an instruction: its second operand, and 0 where it ignores the port (30_encoding.md R62, log 9). -/
def Instr.portB : Instr → Packed
  | .enc32 _ => 0
  | .enc64 _ => 0
  | .dec32 _ => 0
  | .dec64 _ => 0
  | .classify _ => 0
  | .pos _ => 0
  | .neg _ => 0
  | .cmp _ b => b
  | .cmplt _ b => b
  | .cmpgt _ b => b
  | .add _ b => b
  | .sub _ b => b
  | .mul _ b => b
  | .div _ b => b
  | .reservedE => 0
  | .reservedF => 0

/-- The request word of an instruction (30_encoding.md R60, R61, R62). -/
def encode (i : Instr) : RequestWord := requestWord i.opcode i.portA i.portB

/-- The request word that a word of spec/opcode_table.json stands for (log 5). The table's match and mask apply to `req_op`
alone, numbered from bit 0, and give the operands no bits: such a word (shorter than a request, or with nothing above
`req_op`) is that `req_op` with operands of zeros. A word of the full length is `{req_op, req_a, req_b}`. -/
def tableRequest (nbits w : Nat) : RequestWord :=
  if nbits < 116 ∨ w < 16 then requestWord (BitVec.ofNat 4 w) 0 0 else BitVec.ofNat 116 w

/-- The instruction the decoder reads from a word in the table's numbering; `none` where a bit above the request is set. -/
def decodeTableWord (nbits w : Nat) : Option Instr :=
  if isRequestWord w then some (decode (tableRequest nbits w)) else none

end Sys2Proof
end

