-- ==== Sys2Proof/Machine/Flags.lean ====
section
/-! DEFINITION. The status of a response and the codes results are given in: status (60_exceptions.md R170), class
(41_decode.md R102) and relation (42_compare.md R121). The block has no flags that persist (10_state.md R32). -/

namespace Sys2Proof.Machine

/-- The outcome of a request (60_exceptions.md R170). Codes 5, 6 and 7 are never driven, so they have no constructor. -/
inductive Status where
  /-- Success, flush to zero included (60_exceptions.md R175). -/
  | ok
  /-- The rebiased exponent is outside [1, 255] (60_exceptions.md R171). -/
  | rangeOverflow
  /-- The source is Infinity or NaN (60_exceptions.md R172). -/
  | specialValueRejected
  /-- binary32 cannot hold the packed exponent (60_exceptions.md R173). -/
  | narrowingRangeOverflow
  /-- A reserved `req_op` (60_exceptions.md R174). -/
  | illegalOperation
deriving DecidableEq, Repr

/-- The code on `rsp_status` (60_exceptions.md R170). -/
def Status.code : Status → StatusCode
  | .ok => 0
  | .rangeOverflow => 1
  | .specialValueRejected => 2
  | .narrowingRangeOverflow => 3
  | .illegalOperation => 4

/-- The two classes (41_decode.md R102, 00_scope.md R18). -/
inductive FloatClass where
  | zero
  | normal
deriving DecidableEq, Repr

/-- The class code: 0 = ZERO, 1 = NORMAL (41_decode.md R102, 30_encoding.md R63). -/
def FloatClass.code : FloatClass → BitVec 1
  | .zero => 0
  | .normal => 1

/-- The relation of two values (42_compare.md R120). -/
inductive Rel where
  | eq
  | lt
  | gt
  /-- Unordered: an operand is a NaN. -/
  | un
deriving DecidableEq, Repr

/-- The relation code: 0 = EQ, 1 = LT, 2 = GT, 3 = UN (42_compare.md R121, 30_encoding.md R63). -/
def Rel.code : Rel → BitVec 2
  | .eq => 0
  | .lt => 1
  | .gt => 2
  | .un => 3

/-- A truth value in one bit: 1 = true, 0 = false (30_encoding.md R63). -/
def truthCode (t : Bool) : BitVec 1 := if t then 1 else 0

end Sys2Proof.Machine
end

