-- ==== Sys2Proof/Machine/Native.lean ====
section
/-! DEFINITION. The native formats binary32 and binary64 (00_scope.md R19), their real values, and the binary64 operations
fp48_arith and fp48_compare use: rounded to nearest, ties to even (00_scope.md R12, 43_arith.md R142, 42_compare.md R120).
PRESUMED where the spec marks IEEE-754 general knowledge (log 6, log 7, log 8). -/

namespace Sys2Proof.Machine

/-- Sign, `f[31]` (00_scope.md R19). -/
def f32Sign (f : Binary32) : BitVec 1 := f.extractLsb' 31 1

/-- Exponent field, `f[30:23]` (00_scope.md R19). -/
def f32Exp (f : Binary32) : BitVec 8 := f.extractLsb' 23 8

/-- Mantissa, `f[22:0]` (00_scope.md R19). -/
def f32Mant (f : Binary32) : BitVec 23 := f.extractLsb' 0 23

/-- Sign, `d[63]` (00_scope.md R19). -/
def f64Sign (d : Binary64) : BitVec 1 := d.extractLsb' 63 1

/-- Exponent field, `d[62:52]` (00_scope.md R19). -/
def f64Exp (d : Binary64) : BitVec 11 := d.extractLsb' 52 11

/-- Mantissa, `d[51:0]` (00_scope.md R19). -/
def f64Mant (d : Binary64) : BitVec 52 := d.extractLsb' 0 52

/-- A magnitude as a whole number of the format's least subnormal: `m` for exponent field 0, else the significand
`2^w + m` shifted by the exponent field less one. -/
def fieldMagnitude (w e m : Nat) : Nat := if e = 0 then m else (2 ^ w + m) * 2 ^ (e - 1)

/-- `|f32val(f)|` as a whole number of 2^-149; meant for finite `f`. -/
def f32Magnitude (f : Binary32) : Nat := fieldMagnitude 23 (f32Exp f).toNat (f32Mant f).toNat

/-- `|f64val(d)|` as a whole number of 2^-1074; for an Infinity it is 2^1024, above every finite value (log 8). -/
def f64Magnitude (d : Binary64) : Nat := fieldMagnitude 52 (f64Exp d).toNat (f64Mant d).toNat

/-- `f64val(d)` as a whole number of 2^-1074. -/
def f64Scaled (d : Binary64) : Int :=
  if f64Sign d = 1 then -(f64Magnitude d : Int) else f64Magnitude d

/-- `f32val(f)` as a whole number of 2^-149. -/
def f32Scaled (f : Binary32) : Int :=
  if f32Sign f = 1 then -(f32Magnitude f : Int) else f32Magnitude f

/-- `f32val(f)`, the real value of a finite binary32 (00_scope.md R15). -/
def f32val (f : Binary32) : ℚ := (f32Scaled f : ℚ) / 2 ^ 149

/-- `f64val(d)`, the real value of a finite binary64 (00_scope.md R15). -/
def f64val (d : Binary64) : ℚ := (f64Scaled d : ℚ) / 2 ^ 1074

/-- Finite: an exponent field that is not all ones (00_scope.md R19). -/
def isFinite64 (d : Binary64) : Bool := f64Exp d != 2047

/-- NaN: an exponent field of all ones with a mantissa that is not 0 (00_scope.md R19). -/
def isNaN64 (d : Binary64) : Bool := f64Exp d == 2047 && f64Mant d != 0

/-- Infinity: an exponent field of all ones with mantissa 0 (00_scope.md R19). -/
def isInf64 (d : Binary64) : Bool := f64Exp d == 2047 && f64Mant d == 0

/-- A zero of either sign. -/
def isZero64 (d : Binary64) : Bool := f64Exp d == 0 && f64Mant d == 0

/-- A binary64 of a sign and the 63 bits below it. -/
def signed64 (s : BitVec 1) (rest : Nat) : Binary64 := s ++ BitVec.ofNat 63 rest

/-- Infinity of a sign. -/
def inf64 (s : BitVec 1) : Binary64 := signed64 s (2047 * 2 ^ 52)

/-- The NaN an invalid operation gives; 95_test_vectors.md 2.8 shows this pattern for 0/0. No pattern of a NaN is visible:
ENC64 rejects every one (log 6). -/
def nan64 : Binary64 := 0x7FF8000000000000

/-- `n / d` rounded to the nearest whole number, a tie to the even one. -/
def nearestEven (n d : Nat) : Nat :=
  if 2 * (n % d) < d then n / d
  else if d < 2 * (n % d) then n / d + 1
  else n / d + n / d % 2

/-- How far above the least subnormal the last place of the binary64 grid lies at the magnitude `q`: 0 up to 2^53, then one
more for each doubling. -/
def gridShift (q : Nat) : Nat := Nat.log2 q - 52

/-- The magnitude `num / den`, counted in 2^-1074, rounded to binary64 (00_scope.md R12): to a multiple of the grid at that
magnitude, and to Infinity from there on when the largest finite value is passed. The exponent field counts grid doublings,
so the field and the mantissa are read off one sum, a carry out of the mantissa included. -/
def roundMagnitude (num den : Nat) : Nat :=
  min (gridShift (num / den) * 2 ^ 52 + nearestEven num (den * 2 ^ gridShift (num / den))) (2047 * 2 ^ 52)

/-- The binary64 nearest to `± num / den`, counted in 2^-1074. -/
def round64 (s : BitVec 1) (num den : Nat) : Binary64 := signed64 s (roundMagnitude num den)

/-- The sign of an exact sum: the sum's own, and for an exact zero + unless both operands are negative (log 7). -/
def sumSign (x y : Binary64) : BitVec 1 :=
  if f64Scaled x + f64Scaled y < 0 then 1
  else if f64Scaled x + f64Scaled y = 0 then f64Sign x &&& f64Sign y
  else 0

/-- binary64 addition (43_arith.md R142). -/
def add64 (x y : Binary64) : Binary64 :=
  if isNaN64 x || isNaN64 y then nan64
  else if isInf64 x && isInf64 y then (if f64Sign x = f64Sign y then x else nan64)
  else if isInf64 x then x
  else if isInf64 y then y
  else round64 (sumSign x y) (f64Scaled x + f64Scaled y).natAbs 1

/-- A binary64 with its sign bit flipped. -/
def neg64 (x : Binary64) : Binary64 := x ^^^ 0x8000000000000000

/-- binary64 subtraction: `x + (-y)` (43_arith.md R142). -/
def sub64 (x y : Binary64) : Binary64 := add64 x (neg64 y)

/-- binary64 multiplication (43_arith.md R142). -/
def mul64 (x y : Binary64) : Binary64 :=
  if isNaN64 x || isNaN64 y then nan64
  else if isInf64 x || isInf64 y then
    (if isZero64 x || isZero64 y then nan64 else inf64 (f64Sign x ^^^ f64Sign y))
  else round64 (f64Sign x ^^^ f64Sign y) (f64Magnitude x * f64Magnitude y) (2 ^ 1074)

/-- binary64 division; `x / 0` is Infinity for `x ≠ 0`, and `0 / 0` a NaN (43_arith.md R142, R146). -/
def div64 (x y : Binary64) : Binary64 :=
  if isNaN64 x || isNaN64 y then nan64
  else if isInf64 x then (if isInf64 y then nan64 else inf64 (f64Sign x ^^^ f64Sign y))
  else if isInf64 y then signed64 (f64Sign x ^^^ f64Sign y) 0
  else if isZero64 y then (if isZero64 x then nan64 else inf64 (f64Sign x ^^^ f64Sign y))
  else round64 (f64Sign x ^^^ f64Sign y) (f64Magnitude x * 2 ^ 1074) (f64Magnitude y)

/-- The IEEE-754 relation of two binary64 values (42_compare.md R120, log 8). -/
def rel64 (x y : Binary64) : Rel :=
  if isNaN64 x || isNaN64 y then .un
  else if f64Scaled x < f64Scaled y then .lt
  else if f64Scaled x = f64Scaled y then .eq
  else .gt

end Sys2Proof.Machine
end

