-- ==== Sys2Proof/Config.lean ====
section
/-! DEFINITION. What an implementation fixes (LATENCY) and the free values the spec leaves open. A free value has no body: nothing can be proved about which value it is. -/

namespace Sys2Proof.Config

/-- LATENCY of the machine `State.reset` describes. R11 leaves it OPEN and suggests 1. DESIGN CHOICE (log 2).
No meaning reads it: a state's latency is the length of its own pipeline plus one. -/
def latency : Nat := 1

/-- The data of the `n`-th entry with v = 0 that enters the pipeline: `<unused>` in R26 (log 3). -/
opaque unusedData : Nat → Data

/-- The status of the `n`-th entry with v = 0 that enters the pipeline: `<unused>` in R26 (log 3). -/
opaque unusedStatus : Nat → StatusCode

/-- OUT_VALID before the first reset edge: unspecified (10_state.md R27, log 4). -/
opaque powerUpOutValid : Bool

/-- OUT_DATA before the first reset edge: unspecified (10_state.md R27, log 4). -/
opaque powerUpOutData : Data

/-- OUT_STATUS before the first reset edge: unspecified (10_state.md R27, log 4). -/
opaque powerUpOutStatus : StatusCode

/-- PIPE[k].v before the first reset edge: unspecified (10_state.md R27, log 4). -/
opaque powerUpPipeValid : Nat → Bool

/-- PIPE[k].data before the first reset edge: unspecified (10_state.md R27, log 4). -/
opaque powerUpPipeData : Nat → Data

/-- PIPE[k].status before the first reset edge: unspecified (10_state.md R27, log 4). -/
opaque powerUpPipeStatus : Nat → StatusCode

end Sys2Proof.Config
end

