-- ==== Sys2Proof/Machine/State.lean ====
section
/-! DEFINITION. The state of the block (10_state.md R23 to R27), its reset value, and the reasons a step could stop. -/

namespace Sys2Proof.Machine

/-- Reasons a step stops with a fault. There are none: the block has no trap, and "There is no fatal/process-terminating
error in this core" (60_exceptions.md R179, R180). -/
inductive Fault where
deriving DecidableEq, Repr

/-- Reasons an instruction has no meaning. -/
inductive Refusal where
  /-- An instruction whose meaning is not written yet; raised by an arm of `exec` only, and by none of them now. Safe. -/
  | notModelled (mnemonic : String)
deriving DecidableEq, Repr

/-- A valid bit with a 64-bit data word and a 3-bit status: the output register OUT, and a stage of PIPE
(10_state.md R24). -/
structure Slot where
  /-- OUT_VALID, or a stage's `v`. -/
  v : Bool
  /-- OUT_DATA, or a stage's `data`. -/
  data : Data
  /-- OUT_STATUS, or a stage's `status`. The code of a status (60_exceptions.md R170); three bits, because a power-up state
  may hold any three (log 10). -/
  status : StatusCode
deriving DecidableEq, Repr

/-- The contents of OUT and of every stage after a reset edge (10_state.md R26, R27). -/
def Slot.clear : Slot := { v := false, data := 0, status := 0 }

/-- The input ports during one cycle, sampled at the rising edge that ends it (10_state.md R23). -/
structure PortIn where
  rst : Bool
  reqValid : Bool
  reqOp : OpSelect
  reqA : Data
  reqB : Packed
deriving DecidableEq, Repr

/-- The state of the block, and the inputs its host will present. -/
structure State where
  /-- The output register OUT (10_state.md R24). -/
  out : Slot
  /-- PIPE[1..LATENCY-1]: PIPE[1] first (10_state.md R24). LATENCY is the length plus one (log 2). -/
  pipe : List Slot
  /-- The model's own: the input ports of the coming cycles, the next one first. When the list is empty the host presents
  nothing (log 1). -/
  port : List PortIn
  /-- The model's own: how many free values for `<unused>` entries have been drawn (10_state.md R26, log 3). -/
  bubbles : Nat
deriving DecidableEq, Repr

/-- LATENCY (00_scope.md R11), at least 1 for every state. -/
def State.latency (s : State) : Nat := s.pipe.length + 1

/-- The output port `rsp_valid` (10_state.md R23). -/
def State.rspValid (s : State) : Bool := s.out.v

/-- The output port `rsp_data` (10_state.md R23). -/
def State.rspData (s : State) : Data := s.out.data

/-- The output port `rsp_status` (10_state.md R23). -/
def State.rspStatus (s : State) : StatusCode := s.out.status

/-- The state after a reset edge of a block of a given LATENCY (10_state.md R27), with no input presented yet. -/
def State.resetAt (latency : Nat) : State :=
  { out := Slot.clear, pipe := List.replicate (latency - 1) Slot.clear, port := [], bubbles := 0 }

/-- The machine right after reset (10_state.md R27, 70_reset_and_hazards.md R191). -/
def State.reset : State := State.resetAt Config.latency

/-- The machine before the first reset edge: every bit of R24's state is unspecified (10_state.md R27, log 4). -/
def State.powerUp (latency : Nat) (port : List PortIn) : State :=
  { out := { v := Config.powerUpOutValid, data := Config.powerUpOutData, status := Config.powerUpOutStatus }
    pipe := (List.range (latency - 1)).map fun k =>
      { v := Config.powerUpPipeValid k, data := Config.powerUpPipeData k, status := Config.powerUpPipeStatus k }
    port := port
    bubbles := 0 }

end Sys2Proof.Machine
end

