-- ==== Sys2Proof/Machine/Ops.lean ====
section
/-! DEFINITION. The shared operations: ending an operation well or with an error (00_scope.md R15, 30_encoding.md R63,
60_exceptions.md R177), the clock edges (10_state.md R26), and the byte layout of a stored value (20_memory.md R41). -/

namespace Sys2Proof.Machine

/-- What `Exec` returns for one request: `(data, status)` (30_encoding.md R66). -/
structure Response where
  data : Data
  status : Status
deriving DecidableEq, Repr

/-- `return (zext_64(x), OK)` (00_scope.md R15, 30_encoding.md R63). -/
def ok {n : Nat} (x : BitVec n) : Response := { data := x.setWidth 64, status := .ok }

/-- `raise <Error>`: the one operation that takes an error. The block has no trap entry: an error is the status of its own
response, with data 0, and saves, switches and transfers nothing (00_scope.md R15, 60_exceptions.md R177, R179). There is
no return from it to model (R181). -/
def raise (e : Status) : Response := { data := 0, status := e }

/-- The entry of a response: `(v=1, data=d, status=s)` (10_state.md R26). -/
def Response.entry (r : Response) : Slot := { v := true, data := r.data, status := r.status.code }

/-- The entry of a cycle with no request: v = 0 and `<unused>` data and status, which are free values
(10_state.md R26, log 3). -/
def unusedEntry (n : Nat) : Slot :=
  { v := false, data := Config.unusedData n, status := Config.unusedStatus n }

/-- `incoming` of R26: the oldest stage, or the entry itself when LATENCY is 1. -/
def incoming (entry : Slot) (pipe : List Slot) : Slot := (entry :: pipe).getLast (List.cons_ne_nil _ _)

/-- PIPE after an edge: PIPE[1] takes the entry and every other stage its neighbour (10_state.md R26). -/
def shift (entry : Slot) (pipe : List Slot) : List Slot := (entry :: pipe).dropLast

/-- OUT after an edge: OUT_VALID takes the incoming valid bit, and OUT_DATA and OUT_STATUS are written only when it is 1
(10_state.md R26). -/
def nextOut (out inc : Slot) : Slot := if inc.v then inc else { out with v := false }

/-- A clock edge with `rst` = 0 at which `entry` enters (10_state.md R26). -/
def State.clockEdge (s : State) (entry : Slot) : State :=
  { s with out := nextOut s.out (incoming entry s.pipe), pipe := shift entry s.pipe }

/-- The edge at which a request is accepted, answered by `r` (10_state.md R26). -/
def State.accept (s : State) (r : Response) : State := s.clockEdge r.entry

/-- An edge with `rst` = 0 and `req_valid` = 0 (10_state.md R26). -/
def State.idleEdge (s : State) : State :=
  { s.clockEdge (unusedEntry s.bubbles) with bubbles := s.bubbles + 1 }

/-- An edge with `rst` = 1: OUT and every stage are cleared, and a request presented is not accepted
(10_state.md R26, 70_reset_and_hazards.md R190). The host's inputs and the counter of free values are no state of the
block and stay (log 13). -/
def State.resetEdge (s : State) : State :=
  { s with out := Slot.clear, pipe := List.replicate s.pipe.length Slot.clear }

/-- The state whose host will present these cycles next. -/
def State.withPort (s : State) (cycles : List PortIn) : State := { s with port := cycles }

/-- The request word on the ports of a cycle (30_encoding.md R60). -/
def PortIn.word (c : PortIn) : RequestWord := c.reqOp ++ c.reqA ++ c.reqB

/-- A cycle that presents a request word, with `rst` = 0 (30_encoding.md R60, 10_state.md R23). -/
def PortIn.request (w : RequestWord) : PortIn :=
  { rst := false, reqValid := true, reqOp := w.extractLsb' 112 4, reqA := w.extractLsb' 48 64, reqB := w.extractLsb' 0 48 }

/-- A cycle in which the host presents nothing (log 1). -/
def PortIn.idle : PortIn := { rst := false, reqValid := false, reqOp := 0, reqA := 0, reqB := 0 }

/-- Serialize48: six bytes, the least significant first (20_memory.md R41). -/
def serialize48 (p : Packed) : Vector Byte 6 :=
  #v[p.extractLsb' 0 8, p.extractLsb' 8 8, p.extractLsb' 16 8, p.extractLsb' 24 8, p.extractLsb' 32 8, p.extractLsb' 40 8]

/-- Deserialize48: `{B[5], B[4], B[3], B[2], B[1], B[0]}` (20_memory.md R41). -/
def deserialize48 (b : Vector Byte 6) : Packed := b[5] ++ b[4] ++ b[3] ++ b[2] ++ b[1] ++ b[0]

end Sys2Proof.Machine
end

