-- ==== Sys2Proof/Machine/Packed.lean ====
section
/-! DEFINITION. The PackedFloat48 value: its fields, canonical form, class and real value, and the range constants
(10_state.md R28 to R30, 41_decode.md R102, 44_constants.md R160 to R162). -/

namespace Sys2Proof.Machine

/-- `pack(s, m, e)` = `{s, m, e}` (00_scope.md R15, 10_state.md R28). -/
def pack (s : BitVec 1) (m : BitVec 39) (e : BitVec 8) : Packed := s ++ m ++ e

/-- The sign, `p[47]` (10_state.md R28). -/
def packedSign (p : Packed) : BitVec 1 := p.extractLsb' 47 1

/-- The mantissa field, `p[46:8]` (10_state.md R28). -/
def packedMant (p : Packed) : BitVec 39 := p.extractLsb' 8 39

/-- The exponent field, `p[7:0]`, bias 129 (10_state.md R28). -/
def packedExp (p : Packed) : BitVec 8 := p.extractLsb' 0 8

/-- Canonical: the all-zero pattern, or an exponent field in [1, 255] (00_scope.md R18, 10_state.md R29). -/
def isCanonical (p : Packed) : Bool := p == 0 || packedExp p != 0

/-- Classify(): ZERO exactly for the all-zero pattern (41_decode.md R102). -/
def floatClass (p : Packed) : FloatClass := if p = 0 then .zero else .normal

/-- `|val(p)|` as a whole number of 2^-168, the least significant mantissa bit of exponent field 0 (10_state.md R30). -/
def packedMagnitude (p : Packed) : Nat :=
  if p = 0 then 0 else (2 ^ 39 + (packedMant p).toNat) * 2 ^ (packedExp p).toNat

/-- `val(p)` as a whole number of 2^-168 (10_state.md R30). -/
def packedScaled (p : Packed) : Int :=
  if packedSign p = 1 then -(packedMagnitude p : Int) else packedMagnitude p

/-- `val(p)`, the represented real value, always rational (10_state.md R30). -/
def val (p : Packed) : ℚ := (packedScaled p : ℚ) / 2 ^ 168

/-- `key(p)` of the bit-level order (42_compare.md R126). -/
def orderKey (p : Packed) : Nat :=
  if p = 0 then 0 else 1 + (packedExp p ++ packedMant p).toNat

/-- `sv(p)` of the bit-level order (42_compare.md R126). -/
def orderValue (p : Packed) : Int :=
  if packedSign p = 1 then -(orderKey p : Int) else orderKey p

/-- MIN, 2^-128 (44_constants.md R160). -/
def packedMIN : Packed := pack 0 0 1

/-- MAX, 2^127 - 2^87 (44_constants.md R161). -/
def packedMAX : Packed := pack 0 (BitVec.allOnes 39) 255

/-- EPSILON, 2^-39 (44_constants.md R162). -/
def packedEPSILON : Packed := pack 0 0 90

end Sys2Proof.Machine
end

