-- ==== Sys2Proof/Machine/Decoder.lean ====
section
/-! DEFINITION. fp48_decoder: DEC32, DEC64 and CLASS (41_decode.md). -/

namespace Sys2Proof.Machine

/-- The result of DEC64(p), which never fails (41_decode.md R101): zero first (R103), then rebias by 894 and extend the
mantissa by 13 zeros; a non-canonical `p` goes the same way (R104). -/
def decoded64 (p : Packed) : Binary64 :=
  if p = 0 then 0
  else packedSign p ++ BitVec.ofInt 11 ((packedExp p).toNat + 894) ++ (packedMant p ++ (0 : BitVec 13))

/-- DEC64(p) (41_decode.md R101). -/
def dec64 (p : Packed) : Response := ok (decoded64 p)

/-- DEC32(p) (41_decode.md R100): zero first (R103), then fail when the packed exponent is at most 2 (90_conflicts.md C1),
then rebias by -2 and keep the top 23 mantissa bits (R106). -/
def dec32 (p : Packed) : Response :=
  if p = 0 then ok (0 : Binary32)
  else if ((packedExp p).toNat : Int) - 2 < 1 then raise .narrowingRangeOverflow
  else ok (packedSign p ++ BitVec.ofInt 8 ((packedExp p).toNat - 2) ++ (packedMant p).extractLsb' 16 23)

/-- CLASS(p) (41_decode.md R102). -/
def classResponse (p : Packed) : Response := ok (floatClass p).code

/-- DEC32 (41_decode.md R100). -/
def execDec32 (p : Packed) (s : State) : Host.Outcome State Fault Refusal :=
  .next (s.accept (dec32 p))

/-- DEC64 (41_decode.md R101). -/
def execDec64 (p : Packed) (s : State) : Host.Outcome State Fault Refusal :=
  .next (s.accept (dec64 p))

/-- CLASS (41_decode.md R102). -/
def execClass (p : Packed) (s : State) : Host.Outcome State Fault Refusal :=
  .next (s.accept (classResponse p))

end Sys2Proof.Machine
end

