-- ==== Sys2Proof/Machine/Encoder.lean ====
section
/-! DEFINITION. fp48_encoder: ENC32 and ENC64 (40_encode.md). -/

namespace Sys2Proof.Machine

/-- Steps 4 (range validation) and 6 (assembly), shared by both widths: `pe` is the rebiased exponent, an unbounded integer
(40_encode.md R80, R81, R84; 00_scope.md R14). -/
def packInBand (s : BitVec 1) (pe : Int) (m : BitVec 39) : Response :=
  if pe < 1 ∨ 255 < pe then raise .rangeOverflow
  else ok (pack s m (BitVec.ofInt 8 pe))

/-- ENC32(f) (40_encode.md R80): flush (R82), special values (R83), rebias by 2 (R84), left-align the mantissa (R85). -/
def enc32 (f : Binary32) : Response :=
  if f32Exp f = 0 then ok (0 : Packed)
  else if f32Exp f = 255 then raise .specialValueRejected
  else packInBand (f32Sign f) ((f32Exp f).toNat + 2) (f32Mant f ++ (0 : BitVec 16))

/-- ENC64(d) (40_encode.md R81): flush (R82), special values (R83), rebias by -894 (R84), truncate to `M[51:13]` (R85). -/
def enc64 (d : Binary64) : Response :=
  if f64Exp d = 0 then ok (0 : Packed)
  else if f64Exp d = 2047 then raise .specialValueRejected
  else packInBand (f64Sign d) ((f64Exp d).toNat - 894) ((f64Mant d).extractLsb' 13 39)

/-- ENC32 (40_encode.md R80). -/
def execEnc32 (f : Binary32) (s : State) : Host.Outcome State Fault Refusal :=
  .next (s.accept (enc32 f))

/-- ENC64 (40_encode.md R81). -/
def execEnc64 (d : Binary64) (s : State) : Host.Outcome State Fault Refusal :=
  .next (s.accept (enc64 d))

end Sys2Proof.Machine
end

