-- ==== Sys2Proof/Machine/Arith.lean ====
section
/-! DEFINITION. fp48_arith: POS, NEG, ADD, SUB, MUL and DIV (43_arith.md). -/

namespace Sys2Proof.Machine

/-- POS(p): the identity (43_arith.md R140). -/
def posResponse (p : Packed) : Response := ok p

/-- The value NEG gives: bit 47 flipped, the zero pattern untouched (43_arith.md R141, 20_memory.md R42). -/
def negated (p : Packed) : Packed := if p = 0 then 0 else p ^^^ 0x800000000000

/-- NEG(p) (43_arith.md R141). -/
def negResponse (p : Packed) : Response := ok (negated p)

/-- The binary-operation path: decode both to binary64, operate, encode the result (43_arith.md R142, R147). -/
def arith (op64 : Binary64 → Binary64 → Binary64) (a b : Packed) : Response :=
  enc64 (op64 (decoded64 a) (decoded64 b))

/-- ADD(a, b) (43_arith.md R143). -/
def addResponse (a b : Packed) : Response := arith add64 a b

/-- SUB(a, b) (43_arith.md R144). -/
def subResponse (a b : Packed) : Response := arith sub64 a b

/-- MUL(a, b) (43_arith.md R145). -/
def mulResponse (a b : Packed) : Response := arith mul64 a b

/-- DIV(a, b) (43_arith.md R146). -/
def divResponse (a b : Packed) : Response := arith div64 a b

/-- POS (43_arith.md R140). -/
def execPos (p : Packed) (s : State) : Host.Outcome State Fault Refusal :=
  .next (s.accept (posResponse p))

/-- NEG (43_arith.md R141). -/
def execNeg (p : Packed) (s : State) : Host.Outcome State Fault Refusal :=
  .next (s.accept (negResponse p))

/-- ADD (43_arith.md R143). -/
def execAdd (a b : Packed) (s : State) : Host.Outcome State Fault Refusal :=
  .next (s.accept (addResponse a b))

/-- SUB (43_arith.md R144). -/
def execSub (a b : Packed) (s : State) : Host.Outcome State Fault Refusal :=
  .next (s.accept (subResponse a b))

/-- MUL (43_arith.md R145). -/
def execMul (a b : Packed) (s : State) : Host.Outcome State Fault Refusal :=
  .next (s.accept (mulResponse a b))

/-- DIV (43_arith.md R146). -/
def execDiv (a b : Packed) (s : State) : Host.Outcome State Fault Refusal :=
  .next (s.accept (divResponse a b))

end Sys2Proof.Machine
end

