-- ==== Sys2Proof/Machine/Compare.lean ====
section
/-! DEFINITION. fp48_compare: CMP, CMPLT and CMPGT (42_compare.md). Comparisons never fail (R124). -/

namespace Sys2Proof.Machine

/-- `Rel(a, b)`: the binary64 relation of the two decodings (42_compare.md R120). -/
def rel (a b : Packed) : Rel := rel64 (decoded64 a) (decoded64 b)

/-- CMP(a, b) (42_compare.md R121). -/
def cmpResponse (a b : Packed) : Response := ok (rel a b).code

/-- CMPLT(a, b): false when unordered (42_compare.md R122). -/
def cmpltResponse (a b : Packed) : Response := ok (truthCode (rel a b == .lt))

/-- CMPGT(a, b): false when unordered (42_compare.md R123). -/
def cmpgtResponse (a b : Packed) : Response := ok (truthCode (rel a b == .gt))

/-- CMP (42_compare.md R121). -/
def execCmp (a b : Packed) (s : State) : Host.Outcome State Fault Refusal :=
  .next (s.accept (cmpResponse a b))

/-- CMPLT (42_compare.md R122). -/
def execCmplt (a b : Packed) (s : State) : Host.Outcome State Fault Refusal :=
  .next (s.accept (cmpltResponse a b))

/-- CMPGT (42_compare.md R123). -/
def execCmpgt (a b : Packed) (s : State) : Host.Outcome State Fault Refusal :=
  .next (s.accept (cmpgtResponse a b))

end Sys2Proof.Machine
end

