-- ==== Sys2Proof/Machine/Reserved.lean ====
section
/-! DEFINITION. The reserved operations 0xE and 0xF: status IllegalOperation, data 0, in their place in the response order
(30_encoding.md R64, 60_exceptions.md R174). -/

namespace Sys2Proof.Machine

/-- A request with `req_op` 0xE (30_encoding.md R64). -/
def execReservedE (s : State) : Host.Outcome State Fault Refusal :=
  .next (s.accept (raise .illegalOperation))

/-- A request with `req_op` 0xF (30_encoding.md R64). -/
def execReservedF (s : State) : Host.Outcome State Fault Refusal :=
  .next (s.accept (raise .illegalOperation))

end Sys2Proof.Machine
end

