-- ==== Sys2Proof/Machine/Dispatch.lean ====
section
/-! DEFINITION. One arm for each operation: the clock edge at which the block accepts that request (30_encoding.md R66, 10_state.md R26). -/

namespace Sys2Proof.Machine

def exec (i : Instr) (s : State) : Host.Outcome State Fault Refusal :=
  match i with
  | .enc32 f => Sys2Proof.Machine.execEnc32 f s
  | .enc64 d => Sys2Proof.Machine.execEnc64 d s
  | .dec32 p => Sys2Proof.Machine.execDec32 p s
  | .dec64 p => Sys2Proof.Machine.execDec64 p s
  | .classify p => Sys2Proof.Machine.execClass p s
  | .pos p => Sys2Proof.Machine.execPos p s
  | .neg p => Sys2Proof.Machine.execNeg p s
  | .cmp a b => Sys2Proof.Machine.execCmp a b s
  | .cmplt a b => Sys2Proof.Machine.execCmplt a b s
  | .cmpgt a b => Sys2Proof.Machine.execCmpgt a b s
  | .add a b => Sys2Proof.Machine.execAdd a b s
  | .sub a b => Sys2Proof.Machine.execSub a b s
  | .mul a b => Sys2Proof.Machine.execMul a b s
  | .div a b => Sys2Proof.Machine.execDiv a b s
  | .reservedE => Sys2Proof.Machine.execReservedE s
  | .reservedF => Sys2Proof.Machine.execReservedF s

end Sys2Proof.Machine
end

