-- ==== Sys2Proof/Machine/Cycle.lean ====
section
/-! DEFINITION. One rising edge of `clk` with given inputs (10_state.md R26). -/

namespace Sys2Proof.Machine

/-- The edge that samples the inputs `c`: a reset edge, or the edge that accepts the request on the ports, or an edge with
no request (10_state.md R26, 70_reset_and_hazards.md R190). -/
def cycle (c : PortIn) (s : State) : Host.Outcome State Fault Refusal :=
  if c.rst then .next s.resetEdge
  else if c.reqValid then exec (decode c.word) s
  else .next s.idleEdge

end Sys2Proof.Machine
end

