-- ==== Sys2Proof/Machine/Step.lean ====
section
/-! DEFINITION. The step: one rising edge of `clk` (10_state.md R26). -/

namespace Sys2Proof.Machine

/-- One rising edge: the next cycle of the host's list is sampled; past the list's end the host presents nothing (log 1). -/
def step (s : State) : Host.Outcome State Fault Refusal :=
  match s.port with
  | [] => cycle PortIn.idle s
  | c :: cs => cycle c (s.withPort cs)

/-- `s` with the request that a word of the opcode table stands for presented in the coming cycle (log 1, log 5). The
cycles after it stay. -/
def State.withFetchWord (s : State) (nbits w : Nat) : State :=
  s.withPort (PortIn.request (tableRequest nbits w) :: s.port.drop 1)

end Sys2Proof.Machine
end

