-- ==== Sys2Proof/Machine/HostProgram.lean ====
section
/-! DEFINITION. The host side the spec describes: a program of request lines over host variables (30_encoding.md R67 to R69,
43_arith.md R151, 70_reset_and_hazards.md R193, R195 to R197). It is no part of the block: it drives `step` through the
request port. Here one host agent waits for each response before its next line (log 11); several agents that share the port
are in HostAgents.lean. -/

namespace Sys2Proof.Machine

/-- The named constants a line may use (30_encoding.md R67, 44_constants.md R160 to R162). -/
inductive RangeConst where
  | MIN
  | MAX
  | EPSILON
deriving DecidableEq, Repr

/-- The pattern of a named constant, placed by hand and not encoded (44_constants.md R163). -/
def RangeConst.pattern : RangeConst → Packed
  | .MIN => packedMIN
  | .MAX => packedMAX
  | .EPSILON => packedEPSILON

/-- The mnemonics of request lines (30_encoding.md R61, R67). -/
inductive Mnemonic where
  | ENC32
  | ENC64
  | DEC32
  | DEC64
  | CLASS
  | POS
  | NEG
  | CMP
  | CMPLT
  | CMPGT
  | ADD
  | SUB
  | MUL
  | DIV
deriving DecidableEq, Repr

/-- `req_op` of a mnemonic (30_encoding.md R61). -/
def Mnemonic.opcode : Mnemonic → OpSelect
  | .ENC32 => 0x0
  | .ENC64 => 0x1
  | .DEC32 => 0x2
  | .DEC64 => 0x3
  | .CLASS => 0x4
  | .POS => 0x5
  | .NEG => 0x6
  | .CMP => 0x7
  | .CMPLT => 0x8
  | .CMPGT => 0x9
  | .ADD => 0xA
  | .SUB => 0xB
  | .MUL => 0xC
  | .DIV => 0xD

/-- Whether the mnemonic takes a second operand (30_encoding.md R67). -/
def Mnemonic.isBinary (m : Mnemonic) : Bool := 7 ≤ m.opcode.toNat

/-- The name of a host variable, as it is spelt (30_encoding.md R67). -/
abbrev VarName := List Char

/-- An operand of a line: a literal of 8, 12 or 16 hexadecimal digits, a named constant, or a host variable
(30_encoding.md R67). -/
inductive HostOperand where
  | lit32 (x : Binary32)
  | lit48 (x : Packed)
  | lit64 (x : Binary64)
  | const (k : RangeConst)
  | var (x : VarName)
deriving DecidableEq, Repr

/-- A line of a host program (30_encoding.md R67 to R69). -/
inductive HostLine where
  /-- `x <- MNEMONIC a[, b]`, or without `x <-` where `dest` is `none` (30_encoding.md R68). -/
  | request (dest : Option VarName) (m : Mnemonic) (a : HostOperand) (b : Option HostOperand)
  /-- `.req op, a, b` with a reserved `op` (30_encoding.md R67). -/
  | reserved (op : OpSelect) (a b : HostOperand)
  /-- `LDC x, K` for a named constant K (30_encoding.md R69), or, as in program P3 of 95_test_vectors.md, a 48-bit literal. -/
  | ldc (x : VarName) (k : HostOperand)
  /-- `ZERO x` (30_encoding.md R69, 70_reset_and_hazards.md R193). -/
  | zero (x : VarName)
deriving DecidableEq, Repr

/-- `ADDA x, b`: `x <- ADD x, b` (30_encoding.md R69). -/
def HostLine.adda (x : VarName) (b : HostOperand) : HostLine := .request (some x) .ADD (.var x) (some b)

/-- `SUBA x, b`: `x <- SUB x, b` (30_encoding.md R69). -/
def HostLine.suba (x : VarName) (b : HostOperand) : HostLine := .request (some x) .SUB (.var x) (some b)

/-- `MULA x, b`: `x <- MUL x, b` (30_encoding.md R69). -/
def HostLine.mula (x : VarName) (b : HostOperand) : HostLine := .request (some x) .MUL (.var x) (some b)

/-- `DIVA x, b`: `x <- DIV x, b` (30_encoding.md R69). -/
def HostLine.diva (x : VarName) (b : HostOperand) : HostLine := .request (some x) .DIV (.var x) (some b)

/-- `NEGA x`: `x <- NEG x` (30_encoding.md R69). -/
def HostLine.nega (x : VarName) : HostLine := .request (some x) .NEG (.var x) none

/-- Whether an operand can stand on the 48-bit port `req_b`: a literal is zero-extended to the port width, so one of 16
digits cannot (30_encoding.md R67). -/
def HostOperand.fitsB : HostOperand → Bool
  | .lit64 _ => false
  | .lit32 _ => true
  | .lit48 _ => true
  | .const _ => true
  | .var _ => true

/-- Whether `LDC` may place an operand: a named constant or a literal of 12 digits (30_encoding.md R69, log 11). -/
def HostOperand.isPattern : HostOperand → Bool
  | .const _ => true
  | .lit48 _ => true
  | .lit32 _ => false
  | .lit64 _ => false
  | .var _ => false

/-- Well-formed lines: as many operands as the mnemonic takes, each fitting its port, and `.req` for reserved operations only
(30_encoding.md R67). -/
def HostLine.wellFormed : HostLine → Bool
  | .request _ m _ none => !m.isBinary
  | .request _ m _ (some b) => m.isBinary && b.fitsB
  | .reserved op _ b => decide (14 ≤ op.toNat) && b.fitsB
  | .ldc _ k => k.isPattern
  | .zero _ => true

/-- A host: the block it drives, its variables, and the outcomes so far, the last one first
(00_scope.md R8, 70_reset_and_hazards.md R197). -/
structure HostState where
  block : State
  vars : List (VarName × Data)
  outcomes : List (Data × StatusCode)
deriving DecidableEq, Repr

/-- The value of a host variable, `none` before its first assignment. -/
def HostState.get (h : HostState) (x : VarName) : Option Data := (h.vars.find? (·.1 == x)).map (·.2)

/-- Replacement of a host variable's whole value at once (10_state.md R31, 70_reset_and_hazards.md R196). -/
def HostState.set (h : HostState) (x : VarName) (v : Data) : HostState :=
  { h with vars := (x, v) :: h.vars.filter (·.1 != x) }

/-- The value of an operand, zero-extended to 64 bits; none for a variable not yet assigned (30_encoding.md R67, log 11). -/
def HostState.operand (h : HostState) : HostOperand → Option Data
  | .lit32 x => some (x.setWidth 64)
  | .lit48 x => some (x.setWidth 64)
  | .lit64 x => some x
  | .const k => some (k.pattern.setWidth 64)
  | .var x => h.get x

/-- A value on the 48-bit port `req_b`; none for a wider value, which the port cannot carry (log 11). -/
def onPortB (v : Data) : Option Packed := if v.toNat < 2 ^ 48 then some (v.setWidth 48) else none

/-- Presents one request and waits LATENCY edges, presenting nothing else; the response is sampled only when `rsp_valid` is 1
(70_reset_and_hazards.md R195, R196). -/
def issue (c : PortIn) (s : State) : Option State :=
  match Host.Core.run Sys2Proof.core s.latency (s.withPort [c]) with
  | .next t => if t.rspValid then some t else none
  | .fault _ => none
  | .refused _ => none

/-- What becomes of a host's variables when a response is stored: `dest` takes the result only when the status is OK
(30_encoding.md R68, 43_arith.md R151, 70_reset_and_hazards.md R196). -/
def HostState.store (h : HostState) (dest : Option VarName) (data : Data) (status : StatusCode) : HostState :=
  match dest with
  | some x => if status = 0 then h.set x data else h
  | none => h

/-- A request a host issues: what it puts on the three request ports (30_encoding.md R60). -/
structure Request where
  op : OpSelect
  a : Data
  b : Packed
deriving DecidableEq, Repr

/-- The cycle that presents a request, with `rst` = 0 (10_state.md R23). -/
def Request.cycle (r : Request) : PortIn := { rst := false, reqValid := true, reqOp := r.op, reqA := r.a, reqB := r.b }

/-- What a line comes to once its operands are read. -/
inductive LineAction where
  /-- A pattern placed in a variable, with no request (30_encoding.md R69). -/
  | assign (x : VarName) (v : Data)
  /-- A request to present, and the variable its result goes to (30_encoding.md R68). -/
  | request (r : Request) (dest : Option VarName)
deriving DecidableEq, Repr

/-- A line with its operands read (30_encoding.md R67 to R69); none where it is ill-formed or an operand has no value. -/
def HostState.action (h : HostState) (l : HostLine) : Option LineAction :=
  if l.wellFormed then
    match l with
    | .request dest m a none => (h.operand a).map fun va => .request ⟨m.opcode, va, 0⟩ dest
    | .request dest m a (some b) =>
      (h.operand a).bind fun va => ((h.operand b).bind onPortB).map fun vb => .request ⟨m.opcode, va, vb⟩ dest
    | .reserved op a b =>
      (h.operand a).bind fun va => ((h.operand b).bind onPortB).map fun vb => .request ⟨op, va, vb⟩ none
    | .ldc x k => (h.operand k).map fun v => .assign x v
    | .zero x => some (.assign x 0)
  else none

/-- One request of a program: its outcome is recorded and its result stored (30_encoding.md R68, 43_arith.md R151). -/
def HostState.runRequest (h : HostState) (r : Request) (dest : Option VarName) : Option HostState :=
  (issue r.cycle h.block).map fun t =>
    ({ h with block := t, outcomes := (t.rspData, t.rspStatus) :: h.outcomes } : HostState).store dest t.rspData t.rspStatus

/-- One line of a host program, whole, before anything else happens (30_encoding.md R67 to R69). -/
def HostState.runLine (h : HostState) (l : HostLine) : Option HostState :=
  (h.action l).bind fun act =>
    match act with
    | .assign x v => some (h.set x v)
    | .request r dest => h.runRequest r dest

/-- A straight-line host program (30_encoding.md R68, 70_reset_and_hazards.md R197). -/
def HostState.runProgram (h : HostState) : List HostLine → Option HostState
  | [] => some h
  | l :: ls => (h.runLine l).bind fun h' => h'.runProgram ls

end Sys2Proof.Machine
end

