-- ==== Sys2Proof/Machine/HostAgents.lean ====
section
/-! DEFINITION. Several host agents behind one request port (60_exceptions.md R186, 70_reset_and_hazards.md R195 and R196,
20_memory.md R47 and R49). The spec leaves their arbitration open, "every interleaving" (93_implementation_defined.md I15), and
"the host relation admits the lost update" (I17): so this is a relation, and which event comes next is its free argument.
An agent reads its operands, presents its request, receives its response and stores its result at four events of their
own, between which the other agents may act (DESIGN CHOICE, log 12). -/

namespace Sys2Proof.Machine

/-- Where an agent stands with its current line. -/
inductive Phase where
  /-- Between two lines. -/
  | idle
  /-- Its operands are read; the request is not presented yet. -/
  | ready (r : Request) (dest : Option VarName)
  /-- Its request is accepted; the response has not appeared. -/
  | waiting (r : Request) (dest : Option VarName)
  /-- Its response has been sampled; the result is not stored yet. -/
  | answered (r : Request) (dest : Option VarName) (data : Data) (status : StatusCode)
deriving DecidableEq, Repr

/-- A host agent: the lines it has still to issue, and its phase. -/
structure Agent where
  lines : List HostLine
  phase : Phase
deriving DecidableEq, Repr

/-- Agents that share one block and one set of variables. -/
structure HostSystem where
  /-- The block, the shared variables, and the outcomes in request order, the last one first (70_reset_and_hazards.md R197). -/
  host : HostState
  agents : List Agent
  /-- Which agent each request in flight belongs to, the oldest first. The block carries no such identifier
  (60_exceptions.md R186): the platform keeps it, by the order of the responses (20_memory.md R47). -/
  owners : List Nat
deriving DecidableEq, Repr

/-- What can happen next. The choice among these is the platform's (60_exceptions.md R186). -/
inductive HostEvent where
  /-- Agent `k` reads the operands of its next line. -/
  | fetch (k : Nat)
  /-- A rising edge with `rst` = 0, at which the chosen agent's request is presented, or none is. -/
  | clock (chosen : Option Nat)
  /-- Agent `k` stores the result it has received. -/
  | store (k : Nat)
  /-- A rising edge with `rst` = 1. -/
  | reset
deriving DecidableEq, Repr

/-- Agent `k` reads the operands of its next line; a line without a request places its pattern at once
(30_encoding.md R67 to R69). -/
def HostSystem.fetch (h : HostSystem) (k : Nat) : Option HostSystem :=
  match h.agents[k]? with
  | some ⟨l :: ls, .idle⟩ =>
    (h.host.action l).map fun act =>
      match act with
      | .assign x v => { h with host := h.host.set x v, agents := h.agents.set k ⟨ls, .idle⟩ }
      | .request r dest => { h with agents := h.agents.set k ⟨ls, .ready r dest⟩ }
  | _ => none

/-- A response for an agent that waits for one. -/
def Agent.answer (a : Agent) (data : Data) (status : StatusCode) : Agent :=
  match a.phase with
  | .waiting r dest => ⟨a.lines, .answered r dest data status⟩
  | _ => a

/-- The sampling of the response port, only when `rsp_valid` is 1: the response is that of the oldest request in flight
(70_reset_and_hazards.md R196 item 1, 20_memory.md R47). One that belongs to no agent is dropped (DESIGN CHOICE,
log 12). -/
def HostSystem.receive (h : HostSystem) : HostSystem :=
  if h.host.block.rspValid then
    match h.owners with
    | [] => h
    | k :: ks =>
      { host := { h.host with outcomes := (h.host.block.rspData, h.host.block.rspStatus) :: h.host.outcomes }
        agents := h.agents.modify k fun a => a.answer h.host.block.rspData h.host.block.rspStatus
        owners := ks }
  else h

/-- A rising edge at which the ports carry `c` (10_state.md R26). -/
def HostSystem.edge (h : HostSystem) (c : PortIn) : Option HostSystem :=
  match step (h.host.block.withPort [c]) with
  | .next t => some { h with host := { h.host with block := t } }
  | .fault _ => none
  | .refused _ => none

/-- A rising edge with `rst` = 0: the chosen agent's request, if one is chosen, is presented, and the response that appears
is sampled (10_state.md R26). None where the chosen agent has no request ready. -/
def HostSystem.clock (h : HostSystem) : Option Nat → Option HostSystem
  | none => (h.edge PortIn.idle).map HostSystem.receive
  | some k =>
    match h.agents[k]? with
    | some ⟨ls, .ready r dest⟩ =>
      (({ h with agents := h.agents.set k ⟨ls, .waiting r dest⟩, owners := h.owners ++ [k] } : HostSystem).edge
        r.cycle).map HostSystem.receive
    | _ => none

/-- Agent `k` replaces its receiver, whole and only on OK (70_reset_and_hazards.md R196 items 2 and 3). -/
def HostSystem.store (h : HostSystem) (k : Nat) : Option HostSystem :=
  match h.agents[k]? with
  | some ⟨ls, .answered _ dest data status⟩ =>
    some { h with host := h.host.store dest data status, agents := h.agents.set k ⟨ls, .idle⟩ }
  | _ => none

/-- An agent whose request a reset discards: the request has no outcome, and the agent goes on with its next line
(70_reset_and_hazards.md R190, R197; DESIGN CHOICE, log 12). -/
def Agent.discard (a : Agent) : Agent :=
  match a.phase with
  | .waiting _ _ => ⟨a.lines, .idle⟩
  | _ => a

/-- A rising edge with `rst` = 1: every request in flight is discarded (70_reset_and_hazards.md R190). -/
def HostSystem.resetBlock (h : HostSystem) : Option HostSystem :=
  (h.edge { PortIn.idle with rst := true }).map fun h' => { h' with agents := h'.agents.map Agent.discard, owners := [] }

/-- What an event does; none where it cannot happen now. -/
def HostSystem.event (h : HostSystem) : HostEvent → Option HostSystem
  | .fetch k => h.fetch k
  | .clock chosen => h.clock chosen
  | .store k => h.store k
  | .reset => h.resetBlock

/-- Events one after another. -/
def HostSystem.run (h : HostSystem) : List HostEvent → Option HostSystem
  | [] => some h
  | e :: es => (h.event e).bind fun h' => h'.run es

/-- The host relation: some event leads from one to the other (93_implementation_defined.md I15, I17). -/
def HostSystem.canStep (h h' : HostSystem) : Prop := ∃ e, h.event e = some h'

end Sys2Proof.Machine
end

