-- ==== Sys2Proof/Machine/Response.lean ====
section
/-! DEFINITION. `Exec(op, a, b)` as a function of the request alone (30_encoding.md R66), for statements about runs. `exec`
does not call it: that each meaning answers with it is a lemma. -/

namespace Sys2Proof.Machine

/-- The response of an instruction (30_encoding.md R66). -/
def response : Instr → Response
  | .enc32 f => enc32 f
  | .enc64 d => enc64 d
  | .dec32 p => dec32 p
  | .dec64 p => dec64 p
  | .classify p => classResponse p
  | .pos p => posResponse p
  | .neg p => negResponse p
  | .cmp a b => cmpResponse a b
  | .cmplt a b => cmpltResponse a b
  | .cmpgt a b => cmpgtResponse a b
  | .add a b => addResponse a b
  | .sub a b => subResponse a b
  | .mul a b => mulResponse a b
  | .div a b => divResponse a b
  | .reservedE => raise .illegalOperation
  | .reservedF => raise .illegalOperation

/-- `Exec(op, a, b)`, total over the 2^116 requests (30_encoding.md R66). -/
def execRequest (op : OpSelect) (a : Data) (b : Packed) : Response := response (decodePorts op a b)

end Sys2Proof.Machine
end

