-- ==== Sys2Proof/Safety.lean ====
section
/-! DEFINITION. The terms claims are stated in: legal responses, states that differ only in what the spec leaves unused, the
responses a run shows, correct rounding, and requests in flight that belong to the agents waiting for them. -/

namespace Sys2Proof.Machine

/-- A response the spec allows: a code R170 lists, and data 0 with every code but OK (60_exceptions.md R170, R177). -/
abbrev Slot.legal (x : Slot) : Prop := x.status.toNat ≤ 4 ∧ (x.status ≠ 0 → x.data = 0)

/-- A legal state: OUT holds a legal response, or what a reset left, and so does every valid stage of PIPE. It holds after
reset, and before the first reset edge it need not (10_state.md R27). -/
abbrev State.legal (s : State) : Prop := s.out.legal ∧ ∀ x ∈ s.pipe, x.v = true → x.legal

/-- Equal, or both with v = 0: the `<unused>` fields of R26 aside. -/
abbrev Slot.agrees (x y : Slot) : Prop := x.v = y.v ∧ (x.v = true → x = y)

/-- The same outputs, the same coming inputs, and the same requests in flight: what may differ is the contents of stages with
v = 0 and the model's count of free values (10_state.md R25, R26). -/
def State.agrees (s t : State) : Prop :=
  s.out = t.out ∧ s.port = t.port ∧ List.Forall₂ Slot.agrees s.pipe t.pipe

/-- The responses in flight, the oldest first (10_state.md R25). -/
def State.pending (s : State) : List Slot := s.pipe.reverse.filter (·.v)

/-- The responses shown on the output ports in the cycles after the next `n` edges (70_reset_and_hazards.md R197). -/
def observed : Nat → State → List Slot
  | 0, _ => []
  | n + 1, s =>
    match step s with
    | .next t => (if t.out.v then [t.out] else []) ++ observed n t
    | .fault _ => []
    | .refused _ => []

/-- The responses due to the requests presented in these cycles (10_state.md R26, 30_encoding.md R66). -/
def due (cycles : List PortIn) : List Slot :=
  (cycles.filter (·.reqValid)).map fun c => (execRequest c.reqOp c.reqA c.reqB).entry

/-- `r` is the binary64 nearest to `x`: no finite binary64 is nearer, and where another value is as near, `r` is the one with
an even mantissa (00_scope.md R12). -/
def IsNearestEven (x : ℚ) (r : Binary64) : Prop :=
  isFinite64 r = true ∧
  (∀ r', isFinite64 r' = true → |f64val r - x| ≤ |f64val r' - x|) ∧
  (∀ r', isFinite64 r' = true → |f64val r' - x| = |f64val r - x| → f64val r' ≠ f64val r → r.toNat % 2 = 0)

/-- The response a request is due (30_encoding.md R66). -/
def Request.response (r : Request) : Slot := (execRequest r.op r.a r.b).entry

/-- Agent `k` waits for the response `x`. -/
def HostSystem.awaits (h : HostSystem) (x : Slot) (k : Nat) : Prop :=
  ∃ (ls : List HostLine) (r : Request) (dest : Option VarName),
    h.agents[k]? = some ⟨ls, .waiting r dest⟩ ∧ x = r.response

/-- The responses `flight` are, in order, those that the owners wait for; every waiting agent owns one, and only one; and an
agent that has been answered has the response of its own request (20_memory.md R47). -/
structure HostSystem.owns (h : HostSystem) (flight : List Slot) : Prop where
  inOrder : List.Forall₂ h.awaits flight h.owners
  once : h.owners.Nodup
  waiting : ∀ (k : Nat) (ls : List HostLine) (r : Request) (dest : Option VarName),
    h.agents[k]? = some ⟨ls, .waiting r dest⟩ → k ∈ h.owners
  answered : ∀ (k : Nat) (ls : List HostLine) (r : Request) (dest : Option VarName) (data : Data) (status : StatusCode),
    h.agents[k]? = some ⟨ls, .answered r dest data status⟩ → data = r.response.data ∧ status = r.response.status

/-- The responses in flight are owned, in order, by the agents that wait for them. -/
abbrev HostSystem.owned (h : HostSystem) : Prop := h.owns h.host.block.pending

end Sys2Proof.Machine
end

