-- ==== Sys2Proof/Certificates/Slice0/Obligations.lean ====
section
/-! DEFINITION. The statements for the provers. Each docstring names the rule of spec/ it formalises. An accepted request's
effect is written `.next (s.clockEdge ⟨true, data, status⟩)`: one response enters the pipeline. What that edge does to OUT and
PIPE is ClockEdgeMovesPipeline, and when the response appears on the ports is ResponseAfterLatency. -/

open Sys2Proof Sys2Proof.Machine

/-! ### Encoding -/

/-- Every instruction, with every operand, is read back from its request word (30_encoding.md R60 to R62). -/
def Obligations.DecodeOfEncode : Prop :=
  ∀ i : Instr, decode (encode i) = i

/-- A request word decodes and encodes to itself with the bits its operation ignores cleared and every other bit kept. Which
bits those are is 30_encoding.md R62; that the encoder writes zeros in them is no rule of the spec but the model's DESIGN
CHOICE (log 9). -/
def Obligations.EncodeOfDecodeClearsIgnoredBits : Prop :=
  ∀ (op : OpSelect) (a : Data) (b : Packed),
    encode (decode (requestWord op a b)) =
      requestWord op
        (if op = 0x0 then a &&& 0xFFFFFFFF
         else if op = 0x1 then a
         else if op.toNat ≤ 0xD then a &&& 0xFFFFFFFFFFFF
         else 0)
        (if 0x7 ≤ op.toNat ∧ op.toNat ≤ 0xD then b else 0)

/-- "The bits an operation does not read are ignored: they have no effect on its result or status" (30_encoding.md R62). -/
def Obligations.IgnoredBitsHaveNoEffect : Prop :=
  ∀ (op : OpSelect) (a a' : Data) (b b' : Packed) (s : State),
    (op = 0x0 → a.toNat % 2 ^ 32 = a'.toNat % 2 ^ 32) →
    (op = 0x1 → a = a') →
    (0x2 ≤ op.toNat → op.toNat ≤ 0xD → a.toNat % 2 ^ 48 = a'.toNat % 2 ^ 48) →
    (0x7 ≤ op.toNat → op.toNat ≤ 0xD → b = b') →
    exec (decode (requestWord op a b)) s = exec (decode (requestWord op a' b')) s

/-- Request words of the programs of 95_test_vectors.md decode to the instructions written beside them. -/
def Obligations.DecodeOfWrittenWords : Prop :=
  decode 0x0000000003DCCCCCD000000000000 = .enc32 0x3DCCCCCD ∧
  decode 0x14008000000000000000000000000 = .enc64 0x4008000000000000 ∧
  decode 0x20000200000000083000000000000 = .dec32 0x200000000083 ∧
  decode 0x30000800000000000000000000000 = .dec64 0x800000000000 ∧
  decode 0x40000200000000083000000000000 = .classify 0x200000000083 ∧
  decode 0x600007FFFFFFFFFFF000000000000 = .neg 0x7FFFFFFFFFFF ∧
  decode 0x70000FFFFFFFFFFFF7FFFFFFFFFFF = .cmp 0xFFFFFFFFFFFF 0x7FFFFFFFFFFF ∧
  decode 0xA0000000000000082400000000082 = .add 0x000000000082 0x400000000082 ∧
  decode 0xB00007FFFFFFFFFFF7FFFFFFFFFFF = .sub 0x7FFFFFFFFFFF 0x7FFFFFFFFFFF ∧
  decode 0xC00007FFFFFFFFFFF000000000082 = .mul 0x7FFFFFFFFFFF 0x000000000082 ∧
  decode 0xD0000000000000081000000000082 = .div 0x000000000081 0x000000000082 ∧
  decode 0xE0000000000000000000000000000 = .reservedE

/-! ### The step -/

/-- A step at which a request is presented with `rst` = 0 is `exec` of the decoded request at the state past that cycle
(10_state.md R26, 30_encoding.md R66). -/
def Obligations.StepRunsDecodedRequest : Prop :=
  ∀ (s : State) (c : PortIn) (cs : List PortIn),
    s.port = c :: cs → c.rst = false → c.reqValid = true →
    step s = exec (decode (requestWord c.reqOp c.reqA c.reqB)) (s.withPort cs)

/-- A step at which no request is presented sends an entry with v = 0 into the pipeline; past the end of the host's list the
host presents nothing, which is the model's choice (log 1) (10_state.md R26). -/
def Obligations.StepWithoutRequest : Prop :=
  ∀ s : State,
    (s.port = [] ∨ ∃ c cs, s.port = c :: cs ∧ c.rst = false ∧ c.reqValid = false) →
    ∃ e : Slot, e.v = false ∧
      step s = .next { (s.withPort s.port.tail).clockEdge e with bubbles := s.bubbles + 1 }

/-- At a reset edge, whatever the state before and whatever is presented, the state takes the reset values for its LATENCY;
the host's later inputs and the model's counter stay (10_state.md R26, R27, 70_reset_and_hazards.md R190, R192; log 13). -/
def Obligations.ResetEdgeGivesResetState : Prop :=
  ∀ (s : State) (c : PortIn) (cs : List PortIn),
    s.port = c :: cs → c.rst = true →
    ∃ t, step s = .next t ∧ t.out = ⟨false, 0, 0⟩ ∧ t.pipe.length = s.pipe.length ∧
      (∀ x ∈ t.pipe, x = ⟨false, 0, 0⟩) ∧ t.port = cs ∧ t.bubbles = s.bubbles

/-- From the unspecified power-up state, one reset edge gives the reset state, for every LATENCY
(10_state.md R27, 70_reset_and_hazards.md R192). -/
def Obligations.OneResetEdgeBoots : Prop :=
  ∀ (latency : Nat) (c : PortIn) (cs : List PortIn), c.rst = true →
    step (State.powerUp latency (c :: cs)) = .next ((State.resetAt latency).withPort cs)

/-- An edge with `rst` = 0: PIPE[1] takes the entry, every other stage its neighbour; OUT_VALID takes the valid bit of the
oldest of the entry and the stages, and OUT_DATA and OUT_STATUS change only when that bit is 1 (10_state.md R26). -/
def Obligations.ClockEdgeMovesPipeline : Prop :=
  ∀ (s : State) (e x : Slot),
    (e :: s.pipe)[s.pipe.length]? = some x →
    (s.clockEdge e).pipe.length = s.pipe.length ∧
    (∀ k, k < s.pipe.length → (s.clockEdge e).pipe[k]? = (e :: s.pipe)[k]?) ∧
    (s.clockEdge e).out.v = x.v ∧
    (x.v = true → (s.clockEdge e).out = x) ∧
    (x.v = false → (s.clockEdge e).out.data = s.out.data ∧ (s.clockEdge e).out.status = s.out.status) ∧
    (s.clockEdge e).port = s.port ∧ (s.clockEdge e).bubbles = s.bubbles

/-- The frame of every instruction: it completes in every state, its one effect is that one response enters the pipeline, and
that response depends on the instruction alone: no state and no earlier request affects it
(20_memory.md R46, R47, 60_exceptions.md R179, R181). -/
def Obligations.EveryInstructionEntersOneResponse : Prop :=
  ∀ i : Instr, ∃ e : Slot, e.v = true ∧ e.legal ∧ ∀ s : State, exec i s = .next (s.clockEdge e)

/-- Every step answers a next state: no request and no state stops the block (30_encoding.md R66, 60_exceptions.md R180). -/
def Obligations.EveryStepCompletes : Prop :=
  ∀ s : State, ∃ t, step s = .next t

/-! ### Runs -/

/-- A request accepted in one cycle has its response on the output ports LATENCY cycles later, provided `rst` is 0 at every
edge up to then, whatever is presented between (10_state.md R26). -/
def Obligations.ResponseAfterLatency : Prop :=
  ∀ (s : State) (c : PortIn) (cs rest : List PortIn),
    s.port = c :: (cs ++ rest) → c.rst = false → c.reqValid = true →
    cs.length = s.pipe.length → (∀ d ∈ cs, d.rst = false) →
    ∃ t, Host.Core.run core s.latency s = .next t ∧
      t.rspValid = true ∧
      t.rspData = (execRequest c.reqOp c.reqA c.reqB).data ∧
      t.rspStatus = (execRequest c.reqOp c.reqA c.reqB).status.code ∧
      t.port = rest

/-- Over any cycles with `rst` = 0, the responses shown, then those still in flight, are those in flight before, then one for
each request presented, in request order (10_state.md R26, 20_memory.md R47). -/
def Obligations.ResponsesLeaveInRequestOrder : Prop :=
  ∀ (s : State) (cs rest : List PortIn),
    s.port = cs ++ rest → (∀ c ∈ cs, c.rst = false) →
    ∃ t, Host.Core.run core cs.length s = .next t ∧
      observed cs.length s ++ t.pending = s.pending ++ due cs

/-- A request in flight at a reset edge, and one presented at it, never gets a response: with no request presented after the
edge no response is shown (70_reset_and_hazards.md R190). -/
def Obligations.ResetDiscardsRequestsInFlight : Prop :=
  ∀ (s : State) (c : PortIn) (cs rest : List PortIn),
    s.port = c :: (cs ++ rest) → c.rst = true →
    (∀ d ∈ cs, d.rst = false ∧ d.reqValid = false) →
    observed (cs.length + 1) s = []

/-! ### Invariants -/

/-- LATENCY never changes (00_scope.md R11, 10_state.md R24). -/
def Obligations.StepKeepsLatency : Prop :=
  ∀ s t : State, step s = .next t → t.latency = s.latency

/-- From a state whose responses are legal a step gives one: status codes 5, 6 and 7 are never driven, and an error response
carries data 0 (60_exceptions.md R170, R177). -/
def Obligations.StepKeepsResponsesLegal : Prop :=
  ∀ s t : State, s.legal → step s = .next t → t.legal

/-- The responses of the reset state are legal, for every LATENCY (10_state.md R27). -/
def Obligations.ResetResponsesLegal : Prop :=
  State.reset.legal ∧ ∀ latency : Nat, (State.resetAt latency).legal

/-- What R26 leaves `<unused>` is never seen: states that agree but for it show the same responses for ever
(10_state.md R25, R26). It holds whatever the free values are. -/
def Obligations.UnusedFieldsNeverObserved : Prop :=
  ∀ s t : State, s.agrees t →
    (∀ s' t' : State, step s = .next s' → step t = .next t' → s'.agrees t') ∧
    ∀ n, observed n s = observed n t

/-! ### fp48_encoder -/

/-- ENC32 (40_encode.md R80): its encoding, its operand, and its result on every binary32. -/
def Obligations.Enc32Result : Prop :=
  (∀ (a : Data) (b : Packed), decode (requestWord 0x0 a b) = .enc32 (a.extractLsb' 0 32)) ∧
  ∀ (f : Binary32) (s : State),
    exec (.enc32 f) s = .next (s.clockEdge (
      if f.toNat / 2 ^ 23 % 2 ^ 8 = 0 then ⟨true, 0, 0⟩
      else if f.toNat / 2 ^ 23 % 2 ^ 8 = 255 then ⟨true, 0, 2⟩
      else if f.toNat / 2 ^ 23 % 2 ^ 8 = 254 then ⟨true, 0, 1⟩
      else ⟨true, BitVec.ofNat 64
        (f.toNat / 2 ^ 31 * 2 ^ 47 + f.toNat % 2 ^ 23 * 2 ^ 24 + (f.toNat / 2 ^ 23 % 2 ^ 8 + 2)), 0⟩))

/-- ENC64 (40_encode.md R81): its encoding, its operand, and its result on every binary64. -/
def Obligations.Enc64Result : Prop :=
  (∀ (a : Data) (b : Packed), decode (requestWord 0x1 a b) = .enc64 a) ∧
  ∀ (d : Binary64) (s : State),
    exec (.enc64 d) s = .next (s.clockEdge (
      if d.toNat / 2 ^ 52 % 2 ^ 11 = 0 then ⟨true, 0, 0⟩
      else if d.toNat / 2 ^ 52 % 2 ^ 11 = 2047 then ⟨true, 0, 2⟩
      else if d.toNat / 2 ^ 52 % 2 ^ 11 < 895 ∨ 1149 < d.toNat / 2 ^ 52 % 2 ^ 11 then ⟨true, 0, 1⟩
      else ⟨true, BitVec.ofNat 64
        (d.toNat / 2 ^ 63 * 2 ^ 47 + d.toNat % 2 ^ 52 / 2 ^ 13 * 2 ^ 8 + (d.toNat / 2 ^ 52 % 2 ^ 11 - 894)), 0⟩))

/-- ENC32 is exact and ENC64 truncates the magnitude (40_encode.md R86). -/
def Obligations.EncodedValue : Prop :=
  (∀ (f : Binary32) (s : State), f32Exp f ≠ 0 → (f32Exp f).toNat < 254 →
    ∃ p : Packed, exec (.enc32 f) s = .next (s.clockEdge ⟨true, p.setWidth 64, 0⟩) ∧ val p = f32val f) ∧
  (∀ (d : Binary64) (s : State), 895 ≤ (f64Exp d).toNat → (f64Exp d).toNat ≤ 1149 →
    ∃ p : Packed, exec (.enc64 d) s = .next (s.clockEdge ⟨true, p.setWidth 64, 0⟩) ∧
      val p = (-1) ^ (f64Sign d).toNat * (1 + (((f64Mant d).toNat / 2 ^ 13 : Nat) : ℚ) / 2 ^ 39) *
        2 ^ (((f64Exp d).toNat : ℤ) - 1023) ∧
      |val p| ≤ |f64val d| ∧ (|val p| = |f64val d| ↔ (f64Mant d).toNat % 2 ^ 13 = 0))

/-- Which finite normal inputs the encoder accepts, by magnitude, and what it does with the others (40_encode.md R88). -/
def Obligations.AcceptedMagnitudes : Prop :=
  (∀ (d : Binary64) (s : State), f64Exp d ≠ 0 → isFinite64 d = true →
    ((2 : ℚ) ^ (-128 : ℤ) ≤ |f64val d| ∧ |f64val d| < 2 ^ 127 →
      ∃ p : Packed, exec (.enc64 d) s = .next (s.clockEdge ⟨true, p.setWidth 64, 0⟩)) ∧
    (¬ ((2 : ℚ) ^ (-128 : ℤ) ≤ |f64val d| ∧ |f64val d| < 2 ^ 127) →
      exec (.enc64 d) s = .next (s.clockEdge ⟨true, 0, 1⟩))) ∧
  (∀ (f : Binary32) (s : State), f32Exp f ≠ 0 → f32Exp f ≠ 255 →
    (|f32val f| < 2 ^ 127 →
      ∃ p : Packed, 3 ≤ (packedExp p).toNat ∧ exec (.enc32 f) s = .next (s.clockEdge ⟨true, p.setWidth 64, 0⟩)) ∧
    (2 ^ 127 ≤ |f32val f| → exec (.enc32 f) s = .next (s.clockEdge ⟨true, 0, 1⟩)))

/-- Every OK result written as a PackedFloat48 is canonical (10_state.md R29, 40_encode.md R89). -/
def Obligations.PackedResultsCanonical : Prop :=
  ∀ i : Instr,
    (match i with
      | .enc32 _ => True
      | .enc64 _ => True
      | .pos p => isCanonical p = true
      | .neg p => isCanonical p = true
      | .add _ _ => True
      | .sub _ _ => True
      | .mul _ _ => True
      | .div _ _ => True
      | _ => False) →
    ∃ e : Slot, (∀ s : State, exec i s = .next (s.clockEdge e)) ∧
      (e.status = 0 → ∃ p : Packed, e.data = p.setWidth 64 ∧ isCanonical p = true)

/-! ### fp48_decoder -/

/-- DEC32 (41_decode.md R100): its encoding, its operand, and its result on every pattern. -/
def Obligations.Dec32Result : Prop :=
  (∀ (a : Data) (b : Packed), decode (requestWord 0x2 a b) = .dec32 (a.extractLsb' 0 48)) ∧
  ∀ (p : Packed) (s : State),
    exec (.dec32 p) s = .next (s.clockEdge (
      if p = 0 then ⟨true, 0, 0⟩
      else if p.toNat % 2 ^ 8 ≤ 2 then ⟨true, 0, 3⟩
      else ⟨true, BitVec.ofNat 64
        (p.toNat / 2 ^ 47 * 2 ^ 31 + (p.toNat % 2 ^ 8 - 2) * 2 ^ 23 + p.toNat / 2 ^ 8 % 2 ^ 39 / 2 ^ 16), 0⟩))

/-- DEC64 (41_decode.md R101): its encoding, its operand, and its result on every pattern, a non-canonical one included
(R104). -/
def Obligations.Dec64Result : Prop :=
  (∀ (a : Data) (b : Packed), decode (requestWord 0x3 a b) = .dec64 (a.extractLsb' 0 48)) ∧
  ∀ (p : Packed) (s : State),
    exec (.dec64 p) s = .next (s.clockEdge (
      if p = 0 then ⟨true, 0, 0⟩
      else ⟨true, BitVec.ofNat 64
        (p.toNat / 2 ^ 47 * 2 ^ 63 + (p.toNat % 2 ^ 8 + 894) * 2 ^ 52 + p.toNat / 2 ^ 8 % 2 ^ 39 * 2 ^ 13), 0⟩))

/-- CLASS (41_decode.md R102): its encoding, its operand, and its result on every pattern. -/
def Obligations.ClassResult : Prop :=
  (∀ (a : Data) (b : Packed), decode (requestWord 0x4 a b) = .classify (a.extractLsb' 0 48)) ∧
  ∀ (p : Packed) (s : State),
    exec (.classify p) s = .next (s.clockEdge (if p = 0 then ⟨true, 0, 0⟩ else ⟨true, 1, 0⟩))

/-- DEC64 is exact and injective, and its result is never a NaN, an Infinity, a denormal or -0.0 (41_decode.md R105). -/
def Obligations.Dec64ExactAndInjective : Prop :=
  (∀ (p : Packed), ∃ d : Binary64, (∀ s : State, exec (.dec64 p) s = .next (s.clockEdge ⟨true, d, 0⟩)) ∧
    f64val d = val p ∧
    (d = 0 ∧ p = 0 ∨ 894 ≤ (f64Exp d).toNat ∧ (f64Exp d).toNat ≤ 1149)) ∧
  ∀ (p q : Packed) (s : State), exec (.dec64 p) s = exec (.dec64 q) s → p = q

/-- DEC32 truncates the magnitude (41_decode.md R106). -/
def Obligations.Dec32Value : Prop :=
  ∀ (p : Packed) (s : State), p ≠ 0 → 3 ≤ (packedExp p).toNat →
    ∃ f : Binary32, exec (.dec32 p) s = .next (s.clockEdge ⟨true, f.setWidth 64, 0⟩) ∧
      f32val f = (-1) ^ (packedSign p).toNat * (1 + (((packedMant p).toNat / 2 ^ 16 : Nat) : ℚ) / 2 ^ 23) *
        2 ^ (((packedExp p).toNat : ℤ) - 129) ∧
      |f32val f| ≤ |val p| ∧ (|f32val f| = |val p| ↔ p.toNat / 2 ^ 8 % 2 ^ 16 = 0) ∧
      1 ≤ (f32Exp f).toNat ∧ (f32Exp f).toNat ≤ 253

/-- Round trips through binary32: lossless for a binary32 with exponent field in [1, 253], and for a canonical nonzero
PackedFloat48 exactly when its packed exponent is at least 3 and `p[23:8]` is 0 (41_decode.md R107 (a) and (d)). -/
def Obligations.RoundTripBinary32 : Prop :=
  (∀ (f : Binary32) (s : State), 1 ≤ (f32Exp f).toNat → (f32Exp f).toNat ≤ 253 →
    ∃ p : Packed, exec (.enc32 f) s = .next (s.clockEdge ⟨true, p.setWidth 64, 0⟩) ∧
      exec (.dec32 p) s = .next (s.clockEdge ⟨true, f.setWidth 64, 0⟩)) ∧
  (∀ (p : Packed) (s : State), isCanonical p = true → p ≠ 0 →
    ((∃ f : Binary32, exec (.dec32 p) s = .next (s.clockEdge ⟨true, f.setWidth 64, 0⟩) ∧
        exec (.enc32 f) s = .next (s.clockEdge ⟨true, p.setWidth 64, 0⟩)) ↔
      3 ≤ (packedExp p).toNat ∧ p.toNat / 2 ^ 8 % 2 ^ 16 = 0))

/-- Round trips through binary64: (b) ENC64 then DEC64 clears `d[12:0]`; (c) DEC64 then ENC64 is the identity on canonical
patterns and (e) RangeOverflow on the others (41_decode.md R107 (b), (c) and (e)). -/
def Obligations.RoundTripBinary64 : Prop :=
  (∀ (d : Binary64) (s : State), 895 ≤ (f64Exp d).toNat → (f64Exp d).toNat ≤ 1149 →
    ∃ p : Packed, exec (.enc64 d) s = .next (s.clockEdge ⟨true, p.setWidth 64, 0⟩) ∧
      exec (.dec64 p) s = .next (s.clockEdge ⟨true, d &&& 0xFFFFFFFFFFFFE000, 0⟩)) ∧
  (∀ (p : Packed) (s : State), ∃ d : Binary64, exec (.dec64 p) s = .next (s.clockEdge ⟨true, d, 0⟩) ∧
    (isCanonical p = true → exec (.enc64 d) s = .next (s.clockEdge ⟨true, p.setWidth 64, 0⟩)) ∧
    (isCanonical p = false → exec (.enc64 d) s = .next (s.clockEdge ⟨true, 0, 1⟩)))

/-! ### fp48_compare -/

/-- CMP gives the relation of the represented values; UN never occurs (42_compare.md R120, R121, R124). -/
def Obligations.CmpResult : Prop :=
  (∀ (a : Data) (b : Packed), decode (requestWord 0x7 a b) = .cmp (a.extractLsb' 0 48) b) ∧
  ∀ (a b : Packed) (s : State),
    exec (.cmp a b) s = .next (s.clockEdge
      (if val a < val b then ⟨true, 1, 0⟩ else if val a = val b then ⟨true, 0, 0⟩ else ⟨true, 2, 0⟩))

/-- CMPLT and CMPGT give whether the first value is less, or greater, than the second (42_compare.md R122, R123, R124). -/
def Obligations.OrderingComparisonResults : Prop :=
  (∀ (a : Data) (b : Packed), decode (requestWord 0x8 a b) = .cmplt (a.extractLsb' 0 48) b) ∧
  (∀ (a : Data) (b : Packed), decode (requestWord 0x9 a b) = .cmpgt (a.extractLsb' 0 48) b) ∧
  (∀ (a b : Packed) (s : State),
    exec (.cmplt a b) s = .next (s.clockEdge (if val a < val b then ⟨true, 1, 0⟩ else ⟨true, 0, 0⟩))) ∧
  (∀ (a b : Packed) (s : State),
    exec (.cmpgt a b) s = .next (s.clockEdge (if val b < val a then ⟨true, 1, 0⟩ else ⟨true, 0, 0⟩)))

/-- The bit-level form of the order gives the same relation for every pair of patterns (42_compare.md R126). -/
def Obligations.CmpByOrderKey : Prop :=
  ∀ (a b : Packed) (s : State),
    exec (.cmp a b) s = .next (s.clockEdge
      (if orderValue a < orderValue b then ⟨true, 1, 0⟩
       else if orderValue a = orderValue b then ⟨true, 0, 0⟩
       else ⟨true, 2, 0⟩))

/-- Equality is bit equality: `val` is injective over all 2^48 patterns, and CMP answers EQ exactly on equal patterns
(42_compare.md R125). -/
def Obligations.EqualExactlyWhenSamePattern : Prop :=
  (∀ a b : Packed, val a = val b → a = b) ∧
  ∀ (a b : Packed) (s : State), exec (.cmp a b) s = .next (s.clockEdge ⟨true, 0, 0⟩) ↔ a = b

/-! ### fp48_arith -/

/-- POS is the identity on every pattern (43_arith.md R140). -/
def Obligations.PosResult : Prop :=
  (∀ (a : Data) (b : Packed), decode (requestWord 0x5 a b) = .pos (a.extractLsb' 0 48)) ∧
  ∀ (p : Packed) (s : State), exec (.pos p) s = .next (s.clockEdge ⟨true, p.setWidth 64, 0⟩)

/-- NEG leaves the zero pattern and flips bit 47, and only bit 47, of every other (43_arith.md R141, 20_memory.md R42). -/
def Obligations.NegResult : Prop :=
  (∀ (a : Data) (b : Packed), decode (requestWord 0x6 a b) = .neg (a.extractLsb' 0 48)) ∧
  ∀ (p : Packed) (s : State),
    exec (.neg p) s = .next (s.clockEdge (
      if p = 0 then ⟨true, 0, 0⟩ else ⟨true, BitVec.ofNat 64 ((p.toNat + 2 ^ 47) % 2 ^ 48), 0⟩))

/-- NEG negates the value and undoes itself, for every pattern but the sign-only one, which it sends to zero
(43_arith.md R141, 10_state.md R30). -/
def Obligations.NegNegatesAndIsInvolution : Prop :=
  (∀ (p : Packed) (s : State), p ≠ 0x800000000000 →
    ∃ q : Packed, exec (.neg p) s = .next (s.clockEdge ⟨true, q.setWidth 64, 0⟩) ∧ val q = -val p ∧
      exec (.neg q) s = .next (s.clockEdge ⟨true, p.setWidth 64, 0⟩)) ∧
  ∀ s : State, exec (.neg 0x800000000000) s = .next (s.clockEdge ⟨true, 0, 0⟩)

/-- ADD encodes the binary64 nearest to the exact sum (43_arith.md R142, R143, 00_scope.md R12). -/
def Obligations.AddEncodesNearestSum : Prop :=
  (∀ (a : Data) (b : Packed), decode (requestWord 0xA a b) = .add (a.extractLsb' 0 48) b) ∧
  ∀ (a b : Packed) (s : State),
    ∃ r : Binary64, IsNearestEven (val a + val b) r ∧ exec (.add a b) s = .next (s.accept (enc64 r))

/-- SUB encodes the binary64 nearest to the exact difference (43_arith.md R142, R144, 00_scope.md R12). -/
def Obligations.SubEncodesNearestDifference : Prop :=
  (∀ (a : Data) (b : Packed), decode (requestWord 0xB a b) = .sub (a.extractLsb' 0 48) b) ∧
  ∀ (a b : Packed) (s : State),
    ∃ r : Binary64, IsNearestEven (val a - val b) r ∧ exec (.sub a b) s = .next (s.accept (enc64 r))

/-- MUL encodes the binary64 nearest to the exact product (43_arith.md R142, R145, 00_scope.md R12). -/
def Obligations.MulEncodesNearestProduct : Prop :=
  (∀ (a : Data) (b : Packed), decode (requestWord 0xC a b) = .mul (a.extractLsb' 0 48) b) ∧
  ∀ (a b : Packed) (s : State),
    ∃ r : Binary64, IsNearestEven (val a * val b) r ∧ exec (.mul a b) s = .next (s.accept (enc64 r))

/-- DIV encodes the binary64 nearest to the exact quotient, and rejects every division by zero
(43_arith.md R142, R146, 00_scope.md R12). -/
def Obligations.DivEncodesNearestQuotient : Prop :=
  (∀ (a : Data) (b : Packed), decode (requestWord 0xD a b) = .div (a.extractLsb' 0 48) b) ∧
  (∀ (a b : Packed) (s : State), b ≠ 0 →
    ∃ r : Binary64, IsNearestEven (val a / val b) r ∧ exec (.div a b) s = .next (s.accept (enc64 r))) ∧
  ∀ (a : Packed) (s : State), exec (.div a 0) s = .next (s.clockEdge ⟨true, 0, 2⟩)

/-- ADD and MUL are commutative (43_arith.md R143, R145). -/
def Obligations.AddAndMulCommute : Prop :=
  (∀ (a b : Packed) (s : State), exec (.add a b) s = exec (.add b a) s) ∧
  ∀ (a b : Packed) (s : State), exec (.mul a b) s = exec (.mul b a) s

/-- The corner cases of ADD and SUB: a + 0, a + (-a), a - a, 0 - a (43_arith.md R143, R144). -/
def Obligations.AddSubCornerCases : Prop :=
  ∀ (a : Packed) (s : State),
    (isCanonical a = true → exec (.add a 0) s = .next (s.clockEdge ⟨true, a.setWidth 64, 0⟩)) ∧
    (isCanonical a = false → exec (.add a 0) s = .next (s.clockEdge ⟨true, 0, 1⟩)) ∧
    (isCanonical a = true → exec (.add a (negated a)) s = .next (s.clockEdge ⟨true, 0, 0⟩)) ∧
    exec (.sub a a) s = .next (s.clockEdge ⟨true, 0, 0⟩) ∧
    (isCanonical a = true → exec (.sub 0 a) s = exec (.neg a) s)

/-- The corner cases of MUL and DIV: a * 0, 0 * a, 0 / a, a / a (43_arith.md R145, R146). -/
def Obligations.MulDivCornerCases : Prop :=
  ∀ (a : Packed) (s : State),
    exec (.mul a 0) s = .next (s.clockEdge ⟨true, 0, 0⟩) ∧
    exec (.mul 0 a) s = .next (s.clockEdge ⟨true, 0, 0⟩) ∧
    (a ≠ 0 → exec (.div 0 a) s = .next (s.clockEdge ⟨true, 0, 0⟩)) ∧
    (a ≠ 0 → exec (.div a a) s = .next (s.clockEdge ⟨true, 0x81, 0⟩))

/-- The sum is rounded to binary64 first and truncated after: an exact sum of 2 - 2^-60 gives 2.0 (43_arith.md R149). -/
def Obligations.AddRoundsTwice : Prop :=
  val 0x7FFFFFFFFF81 + val 0x7FFFF8000059 = 2 - 1 / 2 ^ 60 ∧
  ∀ s : State, exec (.add 0x7FFFFFFFFF81 0x7FFFF8000059) s = .next (s.clockEdge ⟨true, 0x82, 0⟩)

/-! ### Status and reserved operations -/

/-- Which statuses each operation can give; DIV gives SpecialValueRejected exactly for a zero divisor, and ADD, SUB and MUL
never (60_exceptions.md R170, R176, 43_arith.md R148). -/
def Obligations.StatusesOfEachOperation : Prop :=
  ∀ i : Instr, ∃ e : Slot, (∀ s : State, exec i s = .next (s.clockEdge e)) ∧
    match i with
    | .enc32 _ => e.status = 0 ∨ e.status = 1 ∨ e.status = 2
    | .enc64 _ => e.status = 0 ∨ e.status = 1 ∨ e.status = 2
    | .dec32 _ => e.status = 0 ∨ e.status = 3
    | .dec64 _ => e.status = 0
    | .classify _ => e.status = 0
    | .pos _ => e.status = 0
    | .neg _ => e.status = 0
    | .cmp _ _ => e.status = 0
    | .cmplt _ _ => e.status = 0
    | .cmpgt _ _ => e.status = 0
    | .add _ _ => e.status = 0 ∨ e.status = 1
    | .sub _ _ => e.status = 0 ∨ e.status = 1
    | .mul _ _ => e.status = 0 ∨ e.status = 1
    | .div _ b => if b = 0 then e.status = 2 else e.status = 0 ∨ e.status = 1
    | .reservedE => e.status = 4
    | .reservedF => e.status = 4

/-- A request with `req_op` 0xE or 0xF, whatever its operands, is answered IllegalOperation with data 0, takes its place in the
pipeline and changes nothing else; no other request is ever illegal (30_encoding.md R64). -/
def Obligations.ReservedOperationsIllegal : Prop :=
  (∀ (a : Data) (b : Packed) (s : State),
    decode (requestWord 0xE a b) = .reservedE ∧ decode (requestWord 0xF a b) = .reservedF ∧
    exec .reservedE s = .next (s.clockEdge ⟨true, 0, 4⟩) ∧ exec .reservedF s = .next (s.clockEdge ⟨true, 0, 4⟩)) ∧
  ∀ (op : OpSelect) (a : Data) (b : Packed), op.toNat < 0xE →
    ∃ e : Slot, e.status ≠ 4 ∧ ∀ s : State, exec (decode (requestWord op a b)) s = .next (s.clockEdge e)

/-! ### Values, constants and bytes -/

/-- The represented value of every pattern (10_state.md R30). -/
def Obligations.RepresentedValue : Prop :=
  ∀ p : Packed, val p =
    if p = 0 then 0
    else (-1) ^ (p.toNat / 2 ^ 47) * (1 + ((p.toNat / 2 ^ 8 % 2 ^ 39 : Nat) : ℚ) / 2 ^ 39) *
      2 ^ (((p.toNat % 2 ^ 8 : Nat) : ℤ) - 129)

/-- MIN, MAX and EPSILON: pattern and value (44_constants.md R160 to R162). -/
def Obligations.RangeConstants : Prop :=
  packedMIN = 0x000000000001 ∧ val packedMIN = (2 : ℚ) ^ (-128 : ℤ) ∧
  packedMAX = 0x7FFFFFFFFFFF ∧ val packedMAX = 2 ^ 127 - 2 ^ 87 ∧
  packedEPSILON = 0x00000000005A ∧ val packedEPSILON = (2 : ℚ) ^ (-39 : ℤ)

/-- The range law: MIN ≤ |p| ≤ MAX for canonical nonzero p, and |p| < MIN for every other nonzero p; what CMPLT and CMPGT
answer follows (44_constants.md R164). -/
def Obligations.RangeLaw : Prop :=
  ∀ p : Packed, p ≠ 0 →
    (isCanonical p = true → val packedMIN ≤ |val p| ∧ |val p| ≤ val packedMAX) ∧
    (isCanonical p = false → |val p| < val packedMIN) ∧
    (isCanonical p = true → packedSign p = 0 → ∀ s : State,
      exec (.cmplt p packedMIN) s = .next (s.clockEdge ⟨true, 0, 0⟩) ∧
      exec (.cmpgt p packedMAX) s = .next (s.clockEdge ⟨true, 0, 0⟩))

/-- Serialize48 gives six bytes, the least significant first, and Deserialize48 is its inverse (20_memory.md R41). -/
def Obligations.SerializeIsLittleEndian : Prop :=
  (∀ p : Packed, ∀ k : Fin 6, ((serialize48 p)[k]).toNat = p.toNat / 256 ^ k.val % 256) ∧
  (∀ p : Packed, deserialize48 (serialize48 p) = p) ∧
  ∀ b : Vector Byte 6, serialize48 (deserialize48 b) = b

/-! ### The host -/

/-- A compound assignment, in whatever state the block is: the receiver takes the whole result when the status is OK and keeps
its value otherwise; every other variable stays, and the outcome is recorded
(43_arith.md R151, 70_reset_and_hazards.md R196). -/
def Obligations.CompoundAssignmentReplacesOnlyOnOk : Prop :=
  ∀ (h : HostState) (x : VarName) (m : Mnemonic) (v : Data) (b : Packed),
    m.isBinary = true → h.get x = some v →
    ∃ h', h.runLine (.request (some x) m (.var x) (some (.lit48 b))) = some h' ∧
      h'.get x = some (if (execRequest m.opcode v b).status = .ok then (execRequest m.opcode v b).data else v) ∧
      (∀ y, y ≠ x → h'.get y = h.get y) ∧
      h'.outcomes =
        ((execRequest m.opcode v b).data, (execRequest m.opcode v b).status.code) :: h.outcomes

/-- Every event keeps the ownership of requests in flight, so each agent is answered with the response of its own request
(20_memory.md R47, 60_exceptions.md R186; the events are log 12). -/
def Obligations.EveryAgentReceivesItsOwnResponse : Prop :=
  ∀ (h h' : HostSystem) (e : HostEvent), h.owned → h.event e = some h' → h'.owned

/-- A compound assignment by one of several agents, whatever happens between its read and its store, a reset aside: what it
stores is computed from the value its receiver had when it was read; on a status that is not OK the receiver keeps the value
it has by then; every other variable stays (20_memory.md R49, 70_reset_and_hazards.md R195, R196; the
events are log 12). -/
def Obligations.CompoundAssignmentUsesTheValueRead : Prop :=
  ∀ (h h₁ h₂ : HostSystem) (k : Nat) (ls : List HostLine) (x : VarName) (m : Mnemonic) (v : Data) (b : Packed)
    (es : List HostEvent),
    h.owned → m.isBinary = true → h.host.get x = some v →
    h.agents[k]? = some ⟨.request (some x) m (.var x) (some (.lit48 b)) :: ls, .idle⟩ →
    .store k ∉ es → .reset ∉ es →
    h.run (.fetch k :: es) = some h₁ → h₁.event (.store k) = some h₂ →
    h₂.host.get x = (if (execRequest m.opcode v b).status = .ok then some (execRequest m.opcode v b).data
      else h₁.host.get x) ∧
    (∀ y, y ≠ x → h₂.host.get y = h₁.host.get y) ∧
    h₂.agents[k]? = some ⟨ls, .idle⟩

/-- Two agents that do not serialise a compound assignment to one receiver may lose one update: some order of events lets both
complete and leaves the receiver with the second operation applied to the value before both, and both outcomes recorded
(70_reset_and_hazards.md R196 item 4, 93_implementation_defined.md I17; the events are log 12). -/
def Obligations.UnserializedAssignmentsMayLoseAnUpdate : Prop :=
  ∀ (h : HostSystem) (i j : Nat) (ls ls' : List HostLine) (x : VarName) (m n : Mnemonic) (v : Data) (b c : Packed),
    h.host.block.pending = [] → h.owners = [] → i ≠ j → h.host.get x = some v →
    m.isBinary = true → n.isBinary = true →
    h.agents[i]? = some ⟨.request (some x) m (.var x) (some (.lit48 b)) :: ls, .idle⟩ →
    h.agents[j]? = some ⟨.request (some x) n (.var x) (some (.lit48 c)) :: ls', .idle⟩ →
    (execRequest n.opcode v c).status = .ok →
    ∃ es t, h.run es = some t ∧
      t.agents[i]? = some ⟨ls, .idle⟩ ∧ t.agents[j]? = some ⟨ls', .idle⟩ ∧
      t.host.get x = some (execRequest n.opcode v c).data ∧
      t.host.outcomes =
        ((execRequest n.opcode v c).data, (execRequest n.opcode v c).status.code) ::
          ((execRequest m.opcode v b).data, (execRequest m.opcode v b).status.code) :: h.host.outcomes
end

