-- ==== Sys2Proof/Laws/Host.lean ====
section
/-! SUPPORT. Host variables: a read after a replacement (70_reset_and_hazards.md R196). -/

namespace Sys2Proof.Machine

theorem HostState.get_set (h : HostState) (x : VarName) (v : Data) : (h.set x v).get x = some v := by
  simp [HostState.get, HostState.set]

theorem HostState.get_set_ne (h : HostState) (x y : VarName) (v : Data) (hy : y ≠ x) : (h.set x v).get y = h.get y := by
  simp only [HostState.get, HostState.set]
  rw [List.find?_cons_of_neg (by simpa using hy.symm)]
  congr 1
  induction h.vars with
  | nil => rfl
  | cons a l ih =>
    by_cases ha : a.1 = x
    · rw [List.filter_cons_of_neg (by simp [ha]), ih, List.find?_cons_of_neg]
      simp [ha, hy.symm]
    · rw [List.filter_cons_of_pos (by simpa using ha)]
      by_cases hay : a.1 = y
      · rw [List.find?_cons_of_pos (by simp [hay]), List.find?_cons_of_pos (by simp [hay])]
      · rw [List.find?_cons_of_neg (by simpa using hay), List.find?_cons_of_neg (by simpa using hay), ih]

/-- Status 0 is OK, and no other status has code 0 (60_exceptions.md R170). -/
theorem Status.code_eq_zero (s : Status) : s.code = 0 ↔ s = .ok := by
  cases s <;> simp [Status.code]

end Sys2Proof.Machine
end

