-- ==== Sys2Proof/Laws/Fields.lean ====
section
/-! SUPPORT. Every field of a word as arithmetic on the word's number, and the number of a word made of fields. -/

namespace Sys2Proof.Machine

theorem toNat_append_add {m n : Nat} (x : BitVec m) (y : BitVec n) : (x ++ y).toNat = x.toNat * 2 ^ n + y.toNat := by
  rw [BitVec.toNat_append, ← Nat.shiftLeft_add_eq_or_of_lt y.isLt, Nat.shiftLeft_eq]

theorem toNat_extract {w : Nat} (x : BitVec w) (lo n : Nat) :
    (x.extractLsb' lo n).toNat = x.toNat / 2 ^ lo % 2 ^ n := by
  rw [BitVec.extractLsb'_toNat, Nat.shiftRight_eq_div_pow]

/-! The request word (30_encoding.md R60). -/

theorem requestWord_toNat (op : OpSelect) (a : Data) (b : Packed) :
    (requestWord op a b).toNat = op.toNat * 2 ^ 112 + a.toNat * 2 ^ 48 + b.toNat := by
  rw [requestWord, toNat_append_add, toNat_append_add]
  ring

@[simp] theorem reqOp_requestWord (op : OpSelect) (a : Data) (b : Packed) : reqOp (requestWord op a b) = op := by
  apply BitVec.eq_of_toNat_eq
  rw [reqOp, toNat_extract, requestWord_toNat]
  have := op.isLt; have := a.isLt; have := b.isLt
  omega

@[simp] theorem reqA_requestWord (op : OpSelect) (a : Data) (b : Packed) : reqA (requestWord op a b) = a := by
  apply BitVec.eq_of_toNat_eq
  rw [reqA, toNat_extract, requestWord_toNat]
  have := op.isLt; have := a.isLt; have := b.isLt
  omega

@[simp] theorem reqB_requestWord (op : OpSelect) (a : Data) (b : Packed) : reqB (requestWord op a b) = b := by
  apply BitVec.eq_of_toNat_eq
  rw [reqB, toNat_extract, requestWord_toNat]
  have := op.isLt; have := a.isLt; have := b.isLt
  omega

/-- A request word is its three ports and nothing more. -/
theorem requestWord_ports (w : RequestWord) : requestWord (reqOp w) (reqA w) (reqB w) = w := by
  apply BitVec.eq_of_toNat_eq
  rw [requestWord_toNat, reqOp, reqA, reqB, toNat_extract, toNat_extract, toNat_extract]
  have := w.isLt
  omega

/-! PackedFloat48 (10_state.md R28). -/

theorem pack_toNat (s : BitVec 1) (m : BitVec 39) (e : BitVec 8) :
    (pack s m e).toNat = s.toNat * 2 ^ 47 + m.toNat * 2 ^ 8 + e.toNat := by
  rw [pack, toNat_append_add, toNat_append_add]
  ring

theorem packedSign_toNat (p : Packed) : (packedSign p).toNat = p.toNat / 2 ^ 47 := by
  rw [packedSign, toNat_extract]
  have := p.isLt
  omega

theorem packedMant_toNat (p : Packed) : (packedMant p).toNat = p.toNat / 2 ^ 8 % 2 ^ 39 := toNat_extract _ _ _

theorem packedExp_toNat (p : Packed) : (packedExp p).toNat = p.toNat % 2 ^ 8 := by
  rw [packedExp, toNat_extract, Nat.pow_zero, Nat.div_one]

@[simp] theorem packedSign_pack (s : BitVec 1) (m : BitVec 39) (e : BitVec 8) : packedSign (pack s m e) = s := by
  apply BitVec.eq_of_toNat_eq
  rw [packedSign_toNat, pack_toNat]
  have := s.isLt; have := m.isLt; have := e.isLt
  omega

@[simp] theorem packedMant_pack (s : BitVec 1) (m : BitVec 39) (e : BitVec 8) : packedMant (pack s m e) = m := by
  apply BitVec.eq_of_toNat_eq
  rw [packedMant_toNat, pack_toNat]
  have := s.isLt; have := m.isLt; have := e.isLt
  omega

@[simp] theorem packedExp_pack (s : BitVec 1) (m : BitVec 39) (e : BitVec 8) : packedExp (pack s m e) = e := by
  apply BitVec.eq_of_toNat_eq
  rw [packedExp_toNat, pack_toNat]
  have := s.isLt; have := m.isLt; have := e.isLt
  omega

/-- `p = pack(p.s, p.m, p.e)` (10_state.md R28). -/
theorem pack_fields (p : Packed) : pack (packedSign p) (packedMant p) (packedExp p) = p := by
  apply BitVec.eq_of_toNat_eq
  rw [pack_toNat, packedSign_toNat, packedMant_toNat, packedExp_toNat]
  have := p.isLt
  omega

/-! binary32 and binary64 (00_scope.md R19). -/

theorem f32Sign_toNat (f : Binary32) : (f32Sign f).toNat = f.toNat / 2 ^ 31 := by
  rw [f32Sign, toNat_extract]
  have := f.isLt
  omega

theorem f32Exp_toNat (f : Binary32) : (f32Exp f).toNat = f.toNat / 2 ^ 23 % 2 ^ 8 := toNat_extract _ _ _

theorem f32Mant_toNat (f : Binary32) : (f32Mant f).toNat = f.toNat % 2 ^ 23 := by
  rw [f32Mant, toNat_extract, Nat.pow_zero, Nat.div_one]

theorem f64Sign_toNat (d : Binary64) : (f64Sign d).toNat = d.toNat / 2 ^ 63 := by
  rw [f64Sign, toNat_extract]
  have := d.isLt
  omega

theorem f64Exp_toNat (d : Binary64) : (f64Exp d).toNat = d.toNat / 2 ^ 52 % 2 ^ 11 := toNat_extract _ _ _

theorem f64Mant_toNat (d : Binary64) : (f64Mant d).toNat = d.toNat % 2 ^ 52 := by
  rw [f64Mant, toNat_extract, Nat.pow_zero, Nat.div_one]

theorem signed64_toNat (s : BitVec 1) {rest : Nat} (h : rest < 2 ^ 63) :
    (signed64 s rest).toNat = s.toNat * 2 ^ 63 + rest := by
  rw [signed64, toNat_append_add, BitVec.toNat_ofNat, Nat.mod_eq_of_lt h]

/-- A comparison of a field with a literal, as a comparison of numbers. -/
theorem eq_ofNat_iff_toNat {n : Nat} (x : BitVec n) (k : Nat) (h : k < 2 ^ n) : x = BitVec.ofNat n k ↔ x.toNat = k := by
  constructor
  · rintro rfl
    rw [BitVec.toNat_ofNat, Nat.mod_eq_of_lt h]
  · intro hx
    apply BitVec.eq_of_toNat_eq
    rw [hx, BitVec.toNat_ofNat, Nat.mod_eq_of_lt h]

/-- `bits_N` of an integer in range (00_scope.md R14). -/
theorem toNat_ofInt_of_range {n : Nat} {k : Int} (h0 : 0 ≤ k) (h : k < 2 ^ n) : (BitVec.ofInt n k).toNat = k.toNat := by
  rw [BitVec.toNat_ofInt]
  congr 1
  exact Int.emod_eq_of_lt h0 (by exact_mod_cast h)

end Sys2Proof.Machine
end

