-- ==== Sys2Proof/Laws/State.lean ====
section
/-! SUPPORT. One lemma for each field of State and each update, so that no later proof unfolds a record update. -/

namespace Sys2Proof.Machine

@[simp] theorem State.clockEdge_out (s : State) (e : Slot) : (s.clockEdge e).out = nextOut s.out (incoming e s.pipe) := rfl
@[simp] theorem State.clockEdge_pipe (s : State) (e : Slot) : (s.clockEdge e).pipe = shift e s.pipe := rfl
@[simp] theorem State.clockEdge_port (s : State) (e : Slot) : (s.clockEdge e).port = s.port := rfl
@[simp] theorem State.clockEdge_bubbles (s : State) (e : Slot) : (s.clockEdge e).bubbles = s.bubbles := rfl

@[simp] theorem State.accept_out (s : State) (r : Response) : (s.accept r).out = nextOut s.out (incoming r.entry s.pipe) := rfl
@[simp] theorem State.accept_pipe (s : State) (r : Response) : (s.accept r).pipe = shift r.entry s.pipe := rfl
@[simp] theorem State.accept_port (s : State) (r : Response) : (s.accept r).port = s.port := rfl
@[simp] theorem State.accept_bubbles (s : State) (r : Response) : (s.accept r).bubbles = s.bubbles := rfl

@[simp] theorem State.idleEdge_out (s : State) :
    s.idleEdge.out = nextOut s.out (incoming (unusedEntry s.bubbles) s.pipe) := rfl
@[simp] theorem State.idleEdge_pipe (s : State) : s.idleEdge.pipe = shift (unusedEntry s.bubbles) s.pipe := rfl
@[simp] theorem State.idleEdge_port (s : State) : s.idleEdge.port = s.port := rfl
@[simp] theorem State.idleEdge_bubbles (s : State) : s.idleEdge.bubbles = s.bubbles + 1 := rfl

@[simp] theorem State.resetEdge_out (s : State) : s.resetEdge.out = Slot.clear := rfl
@[simp] theorem State.resetEdge_pipe (s : State) : s.resetEdge.pipe = List.replicate s.pipe.length Slot.clear := rfl
@[simp] theorem State.resetEdge_port (s : State) : s.resetEdge.port = s.port := rfl
@[simp] theorem State.resetEdge_bubbles (s : State) : s.resetEdge.bubbles = s.bubbles := rfl

@[simp] theorem State.withPort_out (s : State) (cs : List PortIn) : (s.withPort cs).out = s.out := rfl
@[simp] theorem State.withPort_pipe (s : State) (cs : List PortIn) : (s.withPort cs).pipe = s.pipe := rfl
@[simp] theorem State.withPort_port (s : State) (cs : List PortIn) : (s.withPort cs).port = cs := rfl
@[simp] theorem State.withPort_bubbles (s : State) (cs : List PortIn) : (s.withPort cs).bubbles = s.bubbles := rfl

@[simp] theorem State.resetAt_out (n : Nat) : (State.resetAt n).out = Slot.clear := rfl
@[simp] theorem State.resetAt_pipe (n : Nat) : (State.resetAt n).pipe = List.replicate (n - 1) Slot.clear := rfl
@[simp] theorem State.resetAt_port (n : Nat) : (State.resetAt n).port = [] := rfl
@[simp] theorem State.resetAt_bubbles (n : Nat) : (State.resetAt n).bubbles = 0 := rfl

@[simp] theorem Response.entry_v (r : Response) : r.entry.v = true := rfl
@[simp] theorem Response.entry_data (r : Response) : r.entry.data = r.data := rfl
@[simp] theorem Response.entry_status (r : Response) : r.entry.status = r.status.code := rfl

@[simp] theorem ok_data {n : Nat} (x : BitVec n) : (ok x).data = x.setWidth 64 := rfl
@[simp] theorem ok_status {n : Nat} (x : BitVec n) : (ok x).status = .ok := rfl
@[simp] theorem raise_data (e : Status) : (raise e).data = 0 := rfl
@[simp] theorem raise_status (e : Status) : (raise e).status = e := rfl

@[simp] theorem unusedEntry_v (n : Nat) : (unusedEntry n).v = false := rfl
@[simp] theorem Slot.clear_v : Slot.clear.v = false := rfl
@[simp] theorem Slot.clear_data : Slot.clear.data = 0 := rfl
@[simp] theorem Slot.clear_status : Slot.clear.status = 0 := rfl

end Sys2Proof.Machine
end

