-- ==== Sys2Proof/Laws/Pipeline.lean ====
section
/-! SUPPORT. What one edge does to PIPE and OUT, said once (10_state.md R26). -/

namespace Sys2Proof.Machine

@[simp] theorem shift_length (e : Slot) (pipe : List Slot) : (shift e pipe).length = pipe.length := by
  simp [shift]

/-- With LATENCY 1 the entry itself reaches OUT. -/
@[simp] theorem incoming_nil (e : Slot) : incoming e [] = e := rfl

/-- With LATENCY above 1 the oldest stage reaches OUT. -/
theorem incoming_concat (e x : Slot) (pipe : List Slot) : incoming e (pipe ++ [x]) = x := by
  simp [incoming]

/-- Nothing is lost or made up: the stages after the edge and the incoming one are the stages before it and the entry. -/
theorem shift_append_incoming (e : Slot) (pipe : List Slot) : shift e pipe ++ [incoming e pipe] = e :: pipe :=
  List.dropLast_concat_getLast _

theorem shift_nil (e : Slot) : shift e [] = [] := rfl

theorem shift_concat (e x : Slot) (pipe : List Slot) : shift e (pipe ++ [x]) = e :: pipe := by
  rw [shift, ← List.cons_append, List.dropLast_concat]

theorem mem_shift {e x : Slot} {pipe : List Slot} (h : x ∈ shift e pipe) : x = e ∨ x ∈ pipe := by
  simpa using List.mem_of_mem_dropLast h

theorem incoming_mem (e : Slot) (pipe : List Slot) : incoming e pipe = e ∨ incoming e pipe ∈ pipe := by
  have := List.getLast_mem (List.cons_ne_nil e pipe)
  exact List.mem_cons.mp this

/-- PIPE[1] takes the entry, and PIPE[k+1] takes PIPE[k] (10_state.md R26). -/
theorem shift_getElem? (e : Slot) (pipe : List Slot) (k : Nat) (h : k < pipe.length) :
    (shift e pipe)[k]? = (e :: pipe)[k]? := by
  rw [shift, List.getElem?_dropLast]
  simp [h]

theorem nextOut_of_valid {o x : Slot} (h : x.v = true) : nextOut o x = x := by simp [nextOut, h]

theorem nextOut_of_invalid {o x : Slot} (h : x.v = false) : nextOut o x = { o with v := false } := by simp [nextOut, h]

@[simp] theorem nextOut_v (o x : Slot) : (nextOut o x).v = x.v := by
  cases hx : x.v <;> simp [nextOut, hx]

end Sys2Proof.Machine
end

