-- ==== Sys2Proof/Laws/Exec.lean ====
section
/-! SUPPORT. What `exec` and `step` can do, said once. -/

namespace Sys2Proof.Machine

/-- Every instruction answers a next state: its response enters the pipeline (30_encoding.md R66, 10_state.md R26). -/
theorem exec_eq_accept (i : Instr) (s : State) : exec i s = .next (s.accept (response i)) := by
  cases i <;> rfl

theorem cycle_reset {c : PortIn} (s : State) (h : c.rst = true) : cycle c s = .next s.resetEdge := by
  simp [cycle, h]

theorem cycle_request {c : PortIn} (s : State) (h : c.rst = false) (hv : c.reqValid = true) :
    cycle c s = exec (decode c.word) s := by
  simp [cycle, h, hv]

theorem cycle_idle {c : PortIn} (s : State) (h : c.rst = false) (hv : c.reqValid = false) :
    cycle c s = .next s.idleEdge := by
  simp [cycle, h, hv]

theorem step_nil {s : State} (h : s.port = []) : step s = .next s.idleEdge := by
  simp [step, h, cycle, PortIn.idle]

theorem step_cons {s : State} {c : PortIn} {cs : List PortIn} (h : s.port = c :: cs) :
    step s = cycle c (s.withPort cs) := by
  simp [step, h]

/-- The entry of a cycle with `rst` = 0 (10_state.md R26). -/
def cycleEntry (c : PortIn) (n : Nat) : Slot :=
  if c.reqValid then (response (decode c.word)).entry else unusedEntry n

/-- An edge with `rst` = 0 sends the cycle's entry into the pipeline, and counts a free value when there was no request. -/
theorem cycle_run {c : PortIn} (s : State) (h : c.rst = false) :
    cycle c s = .next { s.clockEdge (cycleEntry c s.bubbles) with
      bubbles := if c.reqValid then s.bubbles else s.bubbles + 1 } := by
  cases hv : c.reqValid
  · rw [cycle_idle s h hv]; simp [cycleEntry, hv, State.idleEdge]
  · rw [cycle_request s h hv, exec_eq_accept]; simp [cycleEntry, hv, State.accept, State.clockEdge]

/-- The three things a step can be: a reset edge, an edge that accepts a request, an edge with none. -/
theorem step_cases {s t : State} (h : step s = .next t) :
    (∃ c cs, s.port = c :: cs ∧ c.rst = true ∧ t = (s.withPort cs).resetEdge) ∨
    (∃ c cs, s.port = c :: cs ∧ c.rst = false ∧ c.reqValid = true ∧
      t = (s.withPort cs).accept (response (decode c.word))) ∨
    ((s.port = [] ∨ ∃ c cs, s.port = c :: cs ∧ c.rst = false ∧ c.reqValid = false) ∧
      t = (s.withPort s.port.tail).idleEdge) := by
  cases hp : s.port with
  | nil =>
    rw [step_nil hp] at h
    refine .inr (.inr ⟨.inl rfl, ?_⟩)
    cases h
    rw [show s.withPort [].tail = s by rw [List.tail_nil, ← hp]; rfl]
  | cons c cs =>
    rw [step_cons hp] at h
    cases hr : c.rst
    · cases hv : c.reqValid
      · rw [cycle_idle _ hr hv] at h
        exact .inr (.inr ⟨.inr ⟨c, cs, rfl, hr, hv⟩, by cases h; rfl⟩)
      · rw [cycle_request _ hr hv, exec_eq_accept] at h
        exact .inr (.inl ⟨c, cs, rfl, hr, hv, by cases h; rfl⟩)
    · rw [cycle_reset _ hr] at h
      exact .inl ⟨c, cs, rfl, hr, by cases h; rfl⟩

theorem core_run_succ (k : Nat) (s : State) {t : State} (h : step s = .next t) :
    Host.Core.run Sys2Proof.core (k + 1) s = Host.Core.run Sys2Proof.core k t := by
  have h' : Sys2Proof.core.step s = .next t := h
  simp only [Host.Core.run, h']

@[simp] theorem core_run_zero (s : State) : Host.Core.run Sys2Proof.core 0 s = .next s := rfl

/-- The word on a cycle's ports decodes as `Exec` reads the ports (30_encoding.md R60, R66). -/
theorem decode_word (c : PortIn) : decode c.word = decodePorts c.reqOp c.reqA c.reqB := by
  rw [decode, show c.word = requestWord c.reqOp c.reqA c.reqB from rfl, reqOp_requestWord, reqA_requestWord,
    reqB_requestWord]

end Sys2Proof.Machine
end

