-- ==== Sys2Proof/Laws/Run.lean ====
section
/-! SUPPORT. What one edge does to the responses in flight, to legality and to agreement, said once for every entry; what a
step with `rst` = 0 is; the host's variables. -/

namespace Sys2Proof.Machine

/-- A step that samples a cycle with `rst` = 0 sends that cycle's entry into the pipeline. -/
theorem step_run {s : State} {c : PortIn} {cs : List PortIn} (h : s.port = c :: cs) (hr : c.rst = false) :
    step s = .next { (s.withPort cs).clockEdge (cycleEntry c s.bubbles) with
      bubbles := if c.reqValid then s.bubbles else s.bubbles + 1 } := by
  rw [step_cons h, cycle_run _ hr]
  rfl

/-- The response shown after an edge, if any, then those still in flight, are those in flight before it and then the entry,
if it is valid. -/
theorem pending_clockEdge (s : State) (e : Slot) :
    (if (s.clockEdge e).out.v then [(s.clockEdge e).out] else []) ++ (s.clockEdge e).pending
      = s.pending ++ (if e.v then [e] else []) := by
  have h := congrArg (fun l => l.reverse.filter (·.v)) (shift_append_incoming e s.pipe)
  simp only [List.reverse_append, List.reverse_cons, List.reverse_nil, List.nil_append, List.filter_append,
    List.singleton_append, List.filter_cons, List.filter_nil] at h
  have h' : (if (incoming e s.pipe).v = true then [incoming e s.pipe] else []) ++ (s.clockEdge e).pending
      = s.pending ++ (if e.v then [e] else []) := by
    rw [State.pending, State.pending, State.clockEdge_pipe, ← h]
    cases (incoming e s.pipe).v <;> simp
  rw [← h']
  congr 1
  cases hv : (incoming e s.pipe).v
  · simp [hv]
  · simp [hv, nextOut_of_valid hv]

/-- The valid part of a cycle's entry is the response due to the cycle. -/
theorem cycleEntry_due (c : PortIn) (n : Nat) :
    (if (cycleEntry c n).v then [cycleEntry c n] else []) = due [c] := by
  cases h : c.reqValid
  · simp [cycleEntry, due, h]
  · simp [cycleEntry, due, h, execRequest, decode_word]

theorem due_cons (c : PortIn) (cs : List PortIn) : due (c :: cs) = due [c] ++ due cs := by
  cases h : c.reqValid <;> simp [due, h]

/-- Two valid entries that make the same edge are the same entry: an edge hides nothing of what enters. -/
theorem clockEdge_entry_inj (s : State) {e f : Slot} (he : e.v = true) (hf : f.v = true)
    (h : s.clockEdge e = s.clockEdge f) : e = f := by
  cases hp : s.pipe with
  | nil => simpa [hp, nextOut_of_valid he, nextOut_of_valid hf] using congrArg State.out h
  | cons x l =>
    have := congrArg State.pipe h
    simp [hp, shift] at this
    exact this

/-- An edge keeps a state legal when the entry, if valid, is legal (60_exceptions.md R170, R177). -/
theorem legal_clockEdge {s : State} {e : Slot} (hs : s.legal) (he : e.v = true → e.legal) : (s.clockEdge e).legal := by
  have hi : (incoming e s.pipe).v = true → (incoming e s.pipe).legal := by
    rcases incoming_mem e s.pipe with h | h
    · rw [h]; exact he
    · exact hs.2 _ h
  refine ⟨?_, ?_⟩
  · cases hv : (incoming e s.pipe).v
    · rw [State.clockEdge_out, nextOut_of_invalid hv]; exact hs.1
    · rw [State.clockEdge_out, nextOut_of_valid hv]; exact hi hv
  · intro x hx hv
    rcases mem_shift hx with rfl | h
    · exact he hv
    · exact hs.2 x h hv

/-- An edge keeps states in agreement when the entries agree (10_state.md R25). -/
theorem agrees_clockEdge {s t : State} {e f : Slot} (h : s.agrees t) (he : e.agrees f) :
    (s.clockEdge e).agrees (t.clockEdge f) := by
  obtain ⟨ho, hp, hq⟩ := h
  have hc : List.Forall₂ Slot.agrees (e :: s.pipe) (f :: t.pipe) := .cons he hq
  have hlen := hq.length_eq
  rw [← shift_append_incoming e, ← shift_append_incoming f] at hc
  have e1 : (shift e s.pipe).length = (shift f t.pipe).length := by simp [hlen]
  have ht := List.forall₂_take (shift e s.pipe).length hc
  have hd := List.forall₂_drop (shift e s.pipe).length hc
  rw [List.take_left, e1, List.take_left] at ht
  rw [List.drop_left, e1, List.drop_left] at hd
  have hi : (incoming e s.pipe).agrees (incoming f t.pipe) := by simpa using hd
  refine ⟨?_, hp, ht⟩
  rw [State.clockEdge_out, State.clockEdge_out, ho]
  cases hv : (incoming e s.pipe).v
  · rw [nextOut_of_invalid hv, nextOut_of_invalid (hi.1 ▸ hv)]
  · rw [hi.2 hv]

/-- A valid stage with `post` stages older than it reaches OUT after one edge more than there are of those, when no edge
until then has `rst` = 1. The host's list may end before: then it presents nothing. -/
theorem run_until_shown (k : Nat) : ∀ (s : State) (cs rest : List PortIn) (pre post : List Slot) (x : Slot),
    s.port = cs ++ rest → (cs.length = k + 1 ∨ rest = [] ∧ cs.length ≤ k + 1) → (∀ d ∈ cs, d.rst = false) →
    x.v = true → s.pipe = pre ++ x :: post → post.length = k →
    ∃ t, Host.Core.run Sys2Proof.core (k + 1) s = .next t ∧ t.out = x ∧ t.port = rest := by
  induction k with
  | zero =>
    intro s cs rest pre post x hp hl hr hx hpipe hk
    obtain rfl : post = [] := List.length_eq_zero_iff.mp hk
    cases cs with
    | nil =>
      obtain rfl : rest = [] := by simpa using hl
      refine ⟨_, by rw [core_run_succ _ _ (step_nil hp)]; rfl, ?_, by simpa using hp⟩
      rw [State.idleEdge_out, hpipe, incoming_concat, nextOut_of_valid hx]
    | cons c cs =>
      obtain rfl : cs = [] := by
        apply List.length_eq_zero_iff.mp
        simp at hl
        rcases hl with h | h
        · simp [h]
        · simp [h.2]
      refine ⟨_, by rw [core_run_succ _ _ (step_run hp (hr c (by simp)))]; rfl, ?_, rfl⟩
      show nextOut s.out (incoming _ s.pipe) = x
      rw [hpipe, incoming_concat, nextOut_of_valid hx]
  | succ k ih =>
    intro s cs rest pre post x hp hl hr hx hpipe hk
    obtain ⟨post', y, rfl⟩ : ∃ q y, post = q ++ [y] := by
      cases hpost : post.reverse with
      | nil => simp at hpost; simp [hpost] at hk
      | cons y q => exact ⟨q.reverse, y, by rw [← List.reverse_reverse post, hpost]; simp⟩
    have hshift : ∀ e, shift e s.pipe = (e :: pre) ++ x :: post' := by
      intro e
      rw [hpipe, show pre ++ x :: (post' ++ [y]) = (pre ++ x :: post') ++ [y] by simp, shift_concat]
      rfl
    have hk' : post'.length = k := by simpa using hk
    cases cs with
    | nil =>
      obtain rfl : rest = [] := by simpa using hl
      obtain ⟨t, ht, h1, h2⟩ :=
        ih s.idleEdge [] [] _ post' x (by simpa using hp) (by simp) (by simp) hx (hshift _) hk'
      exact ⟨t, (core_run_succ _ _ (step_nil hp)).trans ht, h1, h2⟩
    | cons c cs =>
      obtain ⟨t, ht, h1, h2⟩ :=
        ih (s := { (s.withPort (cs ++ rest)).clockEdge (cycleEntry c s.bubbles) with
            bubbles := if c.reqValid then s.bubbles else s.bubbles + 1 })
          cs rest _ post' x rfl (by simpa using hl) (fun d hd => hr d (by simp [hd])) hx (hshift _) hk'
      exact ⟨t, (core_run_succ _ _ (step_run hp (hr c (by simp)))).trans ht, h1, h2⟩

end Sys2Proof.Machine
end

