-- ==== Sys2Proof/Laws/Agents.lean ====
section
/-! SUPPORT. Several host agents: what each event does to the agents and to the ownership of requests in flight. -/

namespace Sys2Proof.Machine

@[simp] theorem Request.cycle_rst (r : Request) : r.cycle.rst = false := rfl
@[simp] theorem Request.cycle_reqValid (r : Request) : r.cycle.reqValid = true := rfl

theorem cycleEntry_request (r : Request) (n : Nat) : cycleEntry r.cycle n = r.response := by
  rw [cycleEntry, if_pos r.cycle_reqValid, decode_word]
  rfl

@[simp] theorem HostState.store_block (h : HostState) (dest : Option VarName) (d : Data) (st : StatusCode) :
    (h.store dest d st).block = h.block := by
  cases dest with
  | none => rfl
  | some x => simp only [HostState.store]; split <;> rfl

@[simp] theorem HostState.store_outcomes (h : HostState) (dest : Option VarName) (d : Data) (st : StatusCode) :
    (h.store dest d st).outcomes = h.outcomes := by
  cases dest with
  | none => rfl
  | some x => simp only [HostState.store]; split <;> rfl

/-- A stored result: the receiver takes it on OK only, and every other variable stays. -/
theorem HostState.store_get (h : HostState) (x y : VarName) (d : Data) (st : StatusCode) :
    (h.store (some x) d st).get y = if y = x ∧ st = 0 then some d else h.get y := by
  simp only [HostState.store]
  by_cases hst : st = 0
  · by_cases hy : y = x
    · rw [if_pos hst, if_pos ⟨hy, hst⟩, hy, HostState.get_set]
    · rw [if_pos hst, if_neg (fun h => hy h.1), HostState.get_set_ne h x y d hy]
  · rw [if_neg hst, if_neg (fun h => hst h.2)]

/-- What a compound assignment comes to once its operands are read (30_encoding.md R69). -/
theorem HostState.action_compound {h : HostState} {x : VarName} {m : Mnemonic} {v : Data} (b : Packed)
    (hm : m.isBinary = true) (hx : h.get x = some v) :
    h.action (.request (some x) m (.var x) (some (.lit48 b))) = some (.request ⟨m.opcode, v, b⟩ (some x)) := by
  have hb : onPortB (b.setWidth 64) = some b := by
    have hlt : b.toNat < 2 ^ 48 := b.isLt
    have h1 : (b.setWidth 64).toNat = b.toNat := by rw [BitVec.toNat_setWidth]; omega
    rw [onPortB, if_pos (by omega)]
    congr 1
    apply BitVec.eq_of_toNat_eq
    rw [BitVec.toNat_setWidth, h1]
    omega
  simp [HostState.action, HostLine.wellFormed, hm, HostOperand.fitsB, HostState.operand, hx, hb]

/-- The block after a rising edge with `rst` = 0 at which the ports carry `c`. -/
def blockAfter (s : State) (c : PortIn) : State :=
  { (s.withPort []).clockEdge (cycleEntry c s.bubbles) with bubbles := if c.reqValid then s.bubbles else s.bubbles + 1 }

theorem HostSystem.edge_run (h : HostSystem) {c : PortIn} (hc : c.rst = false) :
    h.edge c = some { h with host := { h.host with block := blockAfter h.host.block c } } := by
  rw [HostSystem.edge, step_run (s := h.host.block.withPort [c]) rfl hc]
  rfl

/-- What an edge shows and what stays in flight after it are what was in flight before and the response due to the cycle. -/
theorem pending_blockAfter (s : State) (c : PortIn) :
    (if (blockAfter s c).out.v then [(blockAfter s c).out] else []) ++ (blockAfter s c).pending = s.pending ++ due [c] := by
  rw [← cycleEntry_due c s.bubbles]
  exact pending_clockEdge (s.withPort []) _

@[simp] theorem due_idle : due [PortIn.idle] = [] := rfl

@[simp] theorem due_request (r : Request) : due [r.cycle] = [r.response] := rfl

@[simp] theorem HostSystem.receive_block (h : HostSystem) : h.receive.host.block = h.host.block := by
  simp only [HostSystem.receive]
  split
  · split <;> rfl
  · rfl

@[simp] theorem HostSystem.receive_get (h : HostSystem) (x : VarName) : h.receive.host.get x = h.host.get x := by
  simp only [HostSystem.receive]
  split
  · split <;> rfl
  · rfl

/-- A response moves one agent from waiting to answered and leaves every other phase. -/
theorem Agent.answer_cases (a : Agent) (d : Data) (st : StatusCode) :
    a.answer d st = a ∨ ∃ r dest, a.phase = .waiting r dest ∧ a.answer d st = ⟨a.lines, .answered r dest d st⟩ := by
  obtain ⟨ls, p⟩ := a
  cases p with
  | waiting r dest => exact .inr ⟨r, dest, rfl, rfl⟩
  | idle => exact .inl rfl
  | ready r dest => exact .inl rfl
  | answered r dest d' st' => exact .inl rfl

/-- An agent that waits for nothing, before and after, changes no ownership. -/
theorem HostSystem.owns_set {h : HostSystem} {flight : List Slot} (ho : h.owns flight) {k : Nat} {a a' : Agent}
    {host : HostState} (hk : h.agents[k]? = some a) (hw : ∀ r dest, a.phase ≠ .waiting r dest)
    (hw' : ∀ r dest, a'.phase ≠ .waiting r dest)
    (ha' : ∀ r dest d st, a'.phase = .answered r dest d st → d = r.response.data ∧ st = r.response.status) :
    ({ h with host := host, agents := h.agents.set k a' } : HostSystem).owns flight := by
  have hlt : k < h.agents.length := (List.getElem?_eq_some_iff.mp hk).1
  refine ⟨?_, ho.once, ?_, ?_⟩
  · refine ho.inOrder.imp ?_
    rintro x j ⟨ls, r, dest, hj, hx⟩
    refine ⟨ls, r, dest, ?_, hx⟩
    have hjk : k ≠ j := by
      rintro rfl
      rw [hk] at hj
      cases hj
      exact hw r dest rfl
    simpa [List.getElem?_set_ne hjk] using hj
  · intro j ls r dest hj
    by_cases hjk : k = j
    · subst hjk
      rw [List.getElem?_set_self hlt] at hj
      cases hj
      exact absurd rfl (hw' r dest)
    · rw [List.getElem?_set_ne hjk] at hj
      exact ho.waiting j ls r dest hj
  · intro j ls r dest d st hj
    by_cases hjk : k = j
    · subst hjk
      rw [List.getElem?_set_self hlt] at hj
      cases hj
      exact ha' r dest d st rfl
    · rw [List.getElem?_set_ne hjk] at hj
      exact ho.answered j ls r dest d st hj

/-- An agent that presents its request owns the response due to it, behind those in flight. -/
theorem HostSystem.owns_present {h : HostSystem} {flight : List Slot} (ho : h.owns flight) {k : Nat} {ls : List HostLine}
    {r : Request} {dest : Option VarName} (hk : h.agents[k]? = some ⟨ls, .ready r dest⟩) :
    ({ h with agents := h.agents.set k ⟨ls, .waiting r dest⟩, owners := h.owners ++ [k] } : HostSystem).owns
      (flight ++ [r.response]) := by
  have hlt : k < h.agents.length := (List.getElem?_eq_some_iff.mp hk).1
  have hnot : k ∉ h.owners := by
    intro hm
    obtain ⟨i, hi, rfl⟩ := List.getElem_of_mem hm
    have hl := ho.inOrder.length_eq
    obtain ⟨ls', r', dest', hj, -⟩ := List.forall₂_iff_get.mp ho.inOrder |>.2 i (hl ▸ hi) hi
    rw [List.get_eq_getElem, hk] at hj
    cases hj
  refine ⟨?_, ?_, ?_, ?_⟩
  · refine List.rel_append ?_ (.cons ⟨ls, r, dest, List.getElem?_set_self hlt, rfl⟩ .nil)
    refine ho.inOrder.imp ?_
    rintro x j ⟨ls', r', dest', hj, hx⟩
    refine ⟨ls', r', dest', ?_, hx⟩
    have hjk : k ≠ j := by rintro rfl; rw [hk] at hj; cases hj
    simpa [List.getElem?_set_ne hjk] using hj
  · exact List.nodup_append.mpr ⟨ho.once, by simp, by simpa using fun a ha => by rintro rfl; exact hnot ha⟩
  · intro j ls' r' dest' hj
    by_cases hjk : k = j
    · simp [hjk]
    · rw [List.getElem?_set_ne hjk] at hj
      exact List.mem_append_left _ (ho.waiting j ls' r' dest' hj)
  · intro j ls' r' dest' d st hj
    by_cases hjk : k = j
    · subst hjk
      rw [List.getElem?_set_self hlt] at hj
      cases hj
    · rw [List.getElem?_set_ne hjk] at hj
      exact ho.answered j ls' r' dest' d st hj

/-- Sampling the response port takes the oldest response to its owner. -/
theorem HostSystem.owns_receive {h : HostSystem} {flight : List Slot}
    (ho : h.owns ((if h.host.block.out.v then [h.host.block.out] else []) ++ flight)) : h.receive.owns flight := by
  rw [HostSystem.receive]
  cases hv : h.host.block.out.v
  · simpa [State.rspValid, hv] using ho
  · simp only [hv, if_true, List.singleton_append] at ho
    rw [if_pos (show h.host.block.rspValid = true from hv)]
    cases hown : h.owners with
    | nil => have := hown ▸ ho.inOrder; cases this
    | cons k ks =>
      have h1 := hown ▸ ho.inOrder
      have honce := hown ▸ ho.once
      obtain ⟨hknot, hks⟩ := List.nodup_cons.mp honce
      cases h1 with
      | cons hk hrest =>
      obtain ⟨ls, r, dest, hk, hx⟩ := hk
      refine ⟨?_, hks, ?_, ?_⟩
      · have hmem : List.Forall₂ (fun x j => h.awaits x j ∧ j ∈ ks) flight ks :=
          List.forall₂_iff_get.mpr ⟨hrest.length_eq, fun i hi hj =>
            ⟨(List.forall₂_iff_get.mp hrest).2 i hi hj, List.get_mem _ _⟩⟩
        refine hmem.imp ?_
        rintro x j ⟨⟨ls', r', dest', hj, hx'⟩, hjm⟩
        refine ⟨ls', r', dest', ?_, hx'⟩
        have hjk : k ≠ j := by rintro rfl; exact hknot hjm
        simpa [List.getElem?_modify, hjk] using hj
      · intro j ls' r' dest' hj
        by_cases hjk : k = j
        · subst hjk
          simp [hk, Agent.answer] at hj
        · have : j ∈ k :: ks := hown ▸ ho.waiting j ls' r' dest' (by simpa [List.getElem?_modify, hjk] using hj)
          simpa [Ne.symm hjk] using this
      · intro j ls' r' dest' d st hj
        by_cases hjk : k = j
        · subst hjk
          simp [hk, Agent.answer] at hj
          obtain ⟨-, hr, -, hd, hs⟩ := hj
          subst hr
          rw [← hd, ← hs, ← hx]
          exact ⟨rfl, rfl⟩
        · exact ho.answered j ls' r' dest' d st (by simpa [List.getElem?_modify, hjk] using hj)

end Sys2Proof.Machine
end

