-- ==== Sys2Proof/Laws/Rounding.lean ====
section
/-! SUPPORT. The binary64 rounding is correct: `round64` gives the finite binary64 nearest to the exact value, a tie to the
even one (00_scope.md R12), wherever the exact value is below 2^1023. -/

namespace Sys2Proof.Machine

/-- `nearestEven n d` is within half a divisor of `n / d`, and even at exactly half. -/
theorem nearestEven_spec (n d : Nat) (hd : 0 < d) :
    (nearestEven n d = n / d ∨ nearestEven n d = n / d + 1) ∧
    2 * (nearestEven n d * d) ≤ 2 * n + d ∧ 2 * n ≤ 2 * (nearestEven n d * d) + d ∧
    (2 * (nearestEven n d * d) = 2 * n + d ∨ 2 * n = 2 * (nearestEven n d * d) + d → nearestEven n d % 2 = 0) := by
  have hdm := Nat.div_add_mod n d
  have hlt := Nat.mod_lt n hd
  rw [Nat.mul_comm] at hdm
  unfold nearestEven
  split_ifs with h1 h2
  · refine ⟨.inl rfl, by omega, by omega, by omega⟩
  · have e : (n / d + 1) * d = n / d * d + d := by ring
    refine ⟨.inr rfl, by omega, by omega, by omega⟩
  · rcases Nat.mod_two_eq_zero_or_one (n / d) with h | h
    · rw [h, Nat.add_zero]
      exact ⟨.inl rfl, by omega, by omega, fun _ => h⟩
    · rw [h]
      have e : (n / d + 1) * d = n / d * d + d := by ring
      exact ⟨.inr rfl, by omega, by omega, fun _ => by omega⟩

/-- Above 2^53 the grid is as coarse as 53 significant bits allow. -/
theorem gridShift_spec (q : Nat) :
    q < 2 ^ (53 + gridShift q) ∧ (gridShift q = 0 ∨ 2 ^ (52 + gridShift q) ≤ q) := by
  unfold gridShift
  by_cases h0 : q = 0
  · subst h0; simp
  have h1 := Nat.log2_self_le h0
  have h2 := Nat.lt_log2_self (n := q)
  refine ⟨lt_of_lt_of_le h2 (Nat.pow_le_pow_right (by norm_num) (by omega)), ?_⟩
  by_cases h : q.log2 ≤ 52
  · left; omega
  · right
    rwa [show 52 + (q.log2 - 52) = q.log2 by omega]

/-- The magnitude of a binary64 read off its 63 low bits when they are one sum of grid and significand. -/
theorem fieldMagnitude_of_sum (g n : Nat) (hn : n ≤ 2 ^ 53) (hg : g = 0 ∨ 2 ^ 52 ≤ n) :
    fieldMagnitude 52 ((g * 2 ^ 52 + n) / 2 ^ 52) ((g * 2 ^ 52 + n) % 2 ^ 52) = n * 2 ^ g := by
  unfold fieldMagnitude
  by_cases h1 : n < 2 ^ 52
  · obtain rfl : g = 0 := by omega
    rw [if_pos (by omega)]
    omega
  by_cases h2 : n = 2 ^ 53
  · rw [if_neg (by omega), show (g * 2 ^ 52 + n) / 2 ^ 52 - 1 = g + 1 by omega,
      show (g * 2 ^ 52 + n) % 2 ^ 52 = 0 by omega, h2, pow_succ]
    ring
  · rw [if_neg (by omega), show (g * 2 ^ 52 + n) / 2 ^ 52 - 1 = g by omega,
      show 2 ^ 52 + (g * 2 ^ 52 + n) % 2 ^ 52 = n by omega]

/-- The low fields of a signed pattern. -/
theorem signed64_fields (s : BitVec 1) {rest : Nat} (h : rest < 2 ^ 63) :
    f64Sign (signed64 s rest) = s ∧ (f64Exp (signed64 s rest)).toNat = rest / 2 ^ 52 ∧
    (f64Mant (signed64 s rest)).toNat = rest % 2 ^ 52 := by
  have hs := s.isLt
  refine ⟨?_, ?_, ?_⟩
  · apply BitVec.eq_of_toNat_eq
    rw [f64Sign_toNat, signed64_toNat s h]
    omega
  · rw [f64Exp_toNat, signed64_toNat s h]
    omega
  · rw [f64Mant_toNat, signed64_toNat s h]
    omega

/-- The rounded value is a whole number of grid steps, and finite below 2^1023. -/
theorem round64_fields (s : BitVec 1) (num den : Nat) (hd : 0 < den) (hb : num < den * 2 ^ 2097) :
    isFinite64 (round64 s num den) = true ∧ f64Sign (round64 s num den) = s ∧
    f64Magnitude (round64 s num den) =
      nearestEven num (den * 2 ^ gridShift (num / den)) * 2 ^ gridShift (num / den) ∧
    (round64 s num den).toNat % 2 = nearestEven num (den * 2 ^ gridShift (num / den)) % 2 := by
  have hbq : num / den < 2 ^ 2097 := by
    rw [Nat.div_lt_iff_lt_mul hd, Nat.mul_comm]
    exact hb
  clear hb
  obtain ⟨hq1, hq2⟩ := gridShift_spec (num / den)
  have hg : gridShift (num / den) ≤ 2044 := by
    by_contra hc
    have hc' : 2097 ≤ 52 + gridShift (num / den) := by clear hbq; omega
    rcases hq2 with h | h
    · rw [h] at hc; exact hc (Nat.zero_le _)
    · exact lt_irrefl _ (((Nat.pow_le_pow_right (by norm_num) hc').trans h).trans_lt hbq)
  clear hbq
  set g := gridShift (num / den) with hgdef
  have hD : 0 < den * 2 ^ g := Nat.mul_pos hd (by positivity)
  obtain ⟨hn, -⟩ := nearestEven_spec num (den * 2 ^ g) hD
  set n := nearestEven num (den * 2 ^ g) with hndef
  have hdiv : num / (den * 2 ^ g) = num / den / 2 ^ g := (Nat.div_div_eq_div_mul _ _ _).symm
  have hlt : num / (den * 2 ^ g) < 2 ^ 53 := by
    rw [hdiv, Nat.div_lt_iff_lt_mul (by positivity), ← pow_add]
    exact hq1
  have hn53 : n ≤ 2 ^ 53 := by omega
  have hn52 : g = 0 ∨ 2 ^ 52 ≤ n := by
    rcases hq2 with h | h
    · exact .inl h
    · right
      have : 2 ^ 52 ≤ num / (den * 2 ^ g) := by
        rw [hdiv, Nat.le_div_iff_mul_le (by positivity), ← pow_add]
        exact h
      omega
  have hsum : g * 2 ^ 52 + n < 2047 * 2 ^ 52 := by omega
  have hr : round64 s num den = signed64 s (g * 2 ^ 52 + n) := by
    rw [round64, roundMagnitude, ← hgdef, ← hndef, Nat.min_eq_left hsum.le]
  have hs63 : g * 2 ^ 52 + n < 2 ^ 63 := by omega
  obtain ⟨h1, h2, h3⟩ := signed64_fields s hs63
  rw [hr]
  refine ⟨?_, h1, ?_, ?_⟩
  · rw [isFinite64, bne_iff_ne]
    intro h
    have := congrArg BitVec.toNat h
    rw [h2] at this
    have h2047 : (2047 : BitVec 11).toNat = 2047 := rfl
    omega
  · rw [f64Magnitude, h2, h3, fieldMagnitude_of_sum g n hn53 hn52]
  · rw [signed64_toNat s hs63]
    omega

/-- A finite binary64 at or above a grid step's first magnitude is a multiple of the step. -/
theorem magnitude_on_grid (d : Binary64) (g : Nat) (h : 2 ^ (52 + g) ≤ f64Magnitude d) : 2 ^ g ∣ f64Magnitude d := by
  have hm := (f64Mant d).isLt
  rw [f64Magnitude, fieldMagnitude] at h ⊢
  split_ifs at h ⊢ with h0
  · have : 2 ^ 52 ≤ 2 ^ (52 + g) := Nat.pow_le_pow_right (by norm_num) (by omega)
    omega
  · apply Dvd.dvd.mul_left
    apply pow_dvd_pow
    by_contra hc
    have h1 : (2 ^ 52 + (f64Mant d).toNat) * 2 ^ ((f64Exp d).toNat - 1) < 2 ^ 53 * 2 ^ ((f64Exp d).toNat - 1) :=
      Nat.mul_lt_mul_of_pos_right (by omega) (by positivity)
    rw [← pow_add] at h1
    have h2 : 2 ^ (53 + ((f64Exp d).toNat - 1)) ≤ 2 ^ (52 + g) := Nat.pow_le_pow_right (by norm_num) (by omega)
    omega

/-- Rounding to a grid: of the two grid points around `v` the chosen one is no further than any point that is not strictly
between them, and even when another is as near. -/
theorem nearest_on_grid {v a G b : ℚ} {q n : ℕ} (ha : a = q * G) (h1 : a ≤ v) (h2 : v < a + G)
    (hn : n = q ∨ n = q + 1) (hlo : 2 * (n * G) ≤ 2 * v + G) (hhi : 2 * v ≤ 2 * (n * G) + G)
    (htie : 2 * (n * G) = 2 * v + G ∨ 2 * v = 2 * (n * G) + G → n % 2 = 0) (hb : b ≤ a ∨ a + G ≤ b) :
    |n * G - v| ≤ |b - v| ∧ (|b - v| = |n * G - v| → b ≠ n * G → n % 2 = 0) := by
  have hbv : b ≤ a ∧ |b - v| = v - b ∨ a + G ≤ b ∧ |b - v| = b - v := by
    rcases hb with h | h
    · exact .inl ⟨h, by rw [abs_of_nonpos (by linarith)]; ring⟩
    · exact .inr ⟨h, abs_of_nonneg (by linarith)⟩
  rcases hn with rfl | rfl
  · have e : |a - v| = v - a := by rw [abs_of_nonpos (by linarith)]; ring
    rw [← ha] at hlo hhi htie ⊢
    rw [e]
    rcases hbv with ⟨hb, e2⟩ | ⟨hb, e2⟩ <;> rw [e2]
    · exact ⟨by linarith, fun h hne => absurd (by linarith) hne⟩
    · exact ⟨by linarith, fun h _ => htie (.inr (by linarith))⟩
  · have e0 : ((q + 1 : ℕ) : ℚ) * G = a + G := by rw [ha]; push_cast; ring
    rw [e0] at hlo hhi htie ⊢
    have e : |a + G - v| = a + G - v := abs_of_nonneg (by linarith)
    rw [e]
    rcases hbv with ⟨hb, e2⟩ | ⟨hb, e2⟩ <;> rw [e2]
    · exact ⟨by linarith, fun h _ => htie (.inl (by linarith))⟩
    · exact ⟨by linarith, fun h hne => absurd (by linarith) hne⟩

/-- The factor a sign bit stands for. -/
theorem f64val_eq (d : Binary64) : f64val d = (if f64Sign d = 1 then -1 else 1) * (f64Magnitude d : ℚ) / 2 ^ 1074 := by
  rw [f64val, f64Scaled]
  split_ifs <;> simp

/-- `round64` is correct rounding, ties to even (00_scope.md R12). -/
theorem round64_nearest (s : BitVec 1) (num den : Nat) (hd : 0 < den) (hb : num < den * 2 ^ 2097) :
    IsNearestEven ((if s = 1 then -1 else 1) * ((num : ℚ) / den) / 2 ^ 1074) (round64 s num den) := by
  obtain ⟨hfin, hsign, hmag, hodd⟩ := round64_fields s num den hd hb
  clear hb
  set r := round64 s num den with hr
  set g := gridShift (num / den) with hg
  obtain ⟨-, hq2⟩ := gridShift_spec (num / den)
  rw [← hg] at hq2
  have hD : 0 < den * 2 ^ g := Nat.mul_pos hd (by positivity)
  obtain ⟨hn, hlo, hhi, htie⟩ := nearestEven_spec num (den * 2 ^ g) hD
  set n := nearestEven num (den * 2 ^ g) with hndef
  set q := num / (den * 2 ^ g) with hqdef
  have hdQ : (0 : ℚ) < den := by exact_mod_cast hd
  have hGQ : (0 : ℚ) < 2 ^ g := by positivity
  -- the exact magnitude between its two grid points
  have hv1 : (q : ℚ) * 2 ^ g ≤ (num : ℚ) / den := by
    rw [le_div_iff₀ hdQ]
    have : q * (den * 2 ^ g) ≤ num := Nat.div_mul_le_self _ _
    have h : ((q * (den * 2 ^ g) : ℕ) : ℚ) ≤ num := by exact_mod_cast this
    push_cast at h
    linarith
  have hv2 : (num : ℚ) / den < (q : ℚ) * 2 ^ g + 2 ^ g := by
    rw [div_lt_iff₀ hdQ]
    have : num < (q + 1) * (den * 2 ^ g) := by
      have := Nat.lt_mul_div_succ num hD
      rw [Nat.mul_comm] at this
      exact this
    have h : (num : ℚ) < (((q + 1) * (den * 2 ^ g) : ℕ) : ℚ) := by exact_mod_cast this
    push_cast at h
    linarith
  have hvd : (num : ℚ) / den * den = num := div_mul_cancel₀ _ hdQ.ne'
  have hlo' : 2 * ((n : ℚ) * 2 ^ g) ≤ 2 * ((num : ℚ) / den) + 2 ^ g := by
    have h : ((2 * (n * (den * 2 ^ g)) : ℕ) : ℚ) ≤ ((2 * num + den * 2 ^ g : ℕ) : ℚ) := by exact_mod_cast hlo
    push_cast at h
    rw [← hvd] at h
    have : (2 * ((n : ℚ) * 2 ^ g)) * den ≤ (2 * ((num : ℚ) / den) + 2 ^ g) * den := by linarith
    exact le_of_mul_le_mul_right this hdQ
  have hhi' : 2 * ((num : ℚ) / den) ≤ 2 * ((n : ℚ) * 2 ^ g) + 2 ^ g := by
    have h : ((2 * num : ℕ) : ℚ) ≤ ((2 * (n * (den * 2 ^ g)) + den * 2 ^ g : ℕ) : ℚ) := by exact_mod_cast hhi
    push_cast at h
    rw [← hvd] at h
    have : (2 * ((num : ℚ) / den)) * den ≤ (2 * ((n : ℚ) * 2 ^ g) + 2 ^ g) * den := by linarith
    exact le_of_mul_le_mul_right this hdQ
  have htie' : 2 * ((n : ℚ) * 2 ^ g) = 2 * ((num : ℚ) / den) + 2 ^ g ∨
      2 * ((num : ℚ) / den) = 2 * ((n : ℚ) * 2 ^ g) + 2 ^ g → n % 2 = 0 := by
    intro h
    apply htie
    rcases h with h | h
    · left
      have : (2 * ((n : ℚ) * 2 ^ g)) * den = (2 * ((num : ℚ) / den) + 2 ^ g) * den := by rw [h]
      rw [add_mul, mul_assoc 2 ((num : ℚ) / den), hvd] at this
      have h' : ((2 * (n * (den * 2 ^ g)) : ℕ) : ℚ) = ((2 * num + den * 2 ^ g : ℕ) : ℚ) := by push_cast; linarith
      exact_mod_cast h'
    · right
      have : (2 * ((num : ℚ) / den)) * den = (2 * ((n : ℚ) * 2 ^ g) + 2 ^ g) * den := by rw [h]
      rw [mul_assoc 2 ((num : ℚ) / den), hvd] at this
      have h' : ((2 * num : ℕ) : ℚ) = ((2 * (n * (den * 2 ^ g)) + den * 2 ^ g : ℕ) : ℚ) := by push_cast; linarith
      exact_mod_cast h'
  -- every other finite binary64, its value counted in the direction of `s`
  have hother : ∀ r' : Binary64, isFinite64 r' = true → ∃ b : ℚ,
      f64val r' = (if s = 1 then -1 else 1) * b / 2 ^ 1074 ∧ (b ≤ (q : ℚ) * 2 ^ g ∨ (q : ℚ) * 2 ^ g + 2 ^ g ≤ b) := by
    intro r' _
    have hmagb : (f64Magnitude r' : ℚ) ≤ (q : ℚ) * 2 ^ g ∨ (q : ℚ) * 2 ^ g + 2 ^ g ≤ (f64Magnitude r' : ℚ) := by
      by_cases hle : f64Magnitude r' ≤ q * 2 ^ g
      · left; exact_mod_cast hle
      · right
        have hdvd : 2 ^ g ∣ f64Magnitude r' := by
          rcases hq2 with h | h
          · rw [h, pow_zero]; exact one_dvd _
          · apply magnitude_on_grid
            have : 2 ^ 52 ≤ q := by
              rw [hqdef, ← Nat.div_div_eq_div_mul, Nat.le_div_iff_mul_le (by positivity), ← pow_add]
              exact h
            have h2 : 2 ^ 52 * 2 ^ g ≤ q * 2 ^ g := Nat.mul_le_mul_right _ this
            rw [pow_add]
            omega
        obtain ⟨k, hk⟩ := hdvd
        rw [hk] at hle ⊢
        have hqk : q < k := by
          by_contra hc
          exact hle (by rw [Nat.mul_comm]; exact Nat.mul_le_mul_right _ (by omega))
        have : (q + 1) * 2 ^ g ≤ 2 ^ g * k := by rw [Nat.mul_comm (2 ^ g)]; exact Nat.mul_le_mul_right _ hqk
        have h : (((q + 1) * 2 ^ g : ℕ) : ℚ) ≤ ((2 ^ g * k : ℕ) : ℚ) := by exact_mod_cast this
        push_cast at h ⊢
        linarith
    have hneg : -(f64Magnitude r' : ℚ) ≤ (q : ℚ) * 2 ^ g := by
      have h1 : (0 : ℚ) ≤ f64Magnitude r' := Nat.cast_nonneg _
      have h2 : (0 : ℚ) ≤ (q : ℚ) * 2 ^ g := by positivity
      linarith
    rw [f64val_eq]
    by_cases h1 : s = 1 <;> by_cases h2 : f64Sign r' = 1
    · exact ⟨f64Magnitude r', by rw [if_pos h1, if_pos h2], hmagb⟩
    · exact ⟨-f64Magnitude r', by rw [if_pos h1, if_neg h2]; ring, .inl hneg⟩
    · exact ⟨-f64Magnitude r', by rw [if_neg h1, if_pos h2]; ring, .inl hneg⟩
    · exact ⟨f64Magnitude r', by rw [if_neg h1, if_neg h2], hmagb⟩
  have hrv : f64val r = (if s = 1 then -1 else 1) * ((n : ℚ) * 2 ^ g) / 2 ^ 1074 := by
    rw [f64val_eq, hsign, hmag]
    push_cast
    rfl
  have hsig : |(if s = 1 then (-1 : ℚ) else 1)| = 1 := by split_ifs <;> simp
  have hdist : ∀ x y : ℚ, |(if s = 1 then (-1 : ℚ) else 1) * x / 2 ^ 1074 - (if s = 1 then (-1 : ℚ) else 1) * y / 2 ^ 1074|
      = |x - y| / 2 ^ 1074 := by
    intro x y
    rw [← sub_div, ← mul_sub, abs_div, abs_mul, hsig, one_mul, abs_of_pos (by positivity : (0 : ℚ) < 2 ^ 1074)]
  have hpos : (0 : ℚ) < 2 ^ 1074 := by positivity
  refine ⟨hfin, ?_, ?_⟩
  · intro r' hr'
    obtain ⟨b, hbv, hbb⟩ := hother r' hr'
    rw [hrv, hbv, hdist, hdist]
    exact div_le_div_of_nonneg_right
      (nearest_on_grid rfl hv1 hv2 hn hlo' hhi' htie' hbb).1 hpos.le
  · intro r' hr' heq hne
    obtain ⟨b, hbv, hbb⟩ := hother r' hr'
    rw [hrv, hbv, hdist, hdist] at heq
    rw [hrv, hbv] at hne
    rw [hodd]
    refine (nearest_on_grid rfl hv1 hv2 hn hlo' hhi' htie' hbb).2 ?_ ?_
    · exact (div_left_inj' hpos.ne').mp heq
    · rintro rfl
      exact hne rfl

end Sys2Proof.Machine
end

