-- ==== Sys2Proof/Laws/Values.lean ====
section
/-! SUPPORT. The shared functions in numbers: the entry of a packed result, the fields and the value of a decoded
PackedFloat48, the value of a PackedFloat48. -/

namespace Sys2Proof.Machine

theorem entry_ok {n : Nat} (x : BitVec n) : (ok x).entry = ⟨true, x.setWidth 64, 0⟩ := rfl

theorem entry_raise (e : Status) : (raise e).entry = ⟨true, 0, e.code⟩ := rfl

theorem setWidth_eq_ofNat {n : Nat} (x : BitVec n) (k : Nat) (h : x.toNat = k) : x.setWidth 64 = BitVec.ofNat 64 k := by
  apply BitVec.eq_of_toNat_eq
  rw [BitVec.toNat_setWidth, BitVec.toNat_ofNat, h]

/-- Range validation and assembly (40_encode.md R84). -/
theorem packInBand_eq (s : BitVec 1) (pe : Int) (m : BitVec 39) :
    packInBand s pe m =
      if 1 ≤ pe ∧ pe ≤ 255 then ok (pack s m (BitVec.ofInt 8 pe)) else raise .rangeOverflow := by
  unfold packInBand
  by_cases h : pe < 1 ∨ 255 < pe
  · rw [if_pos h, if_neg (by omega)]
  · rw [if_neg h, if_pos (by omega)]

/-- A packed exponent in range is the exponent field it is stored in. -/
theorem packedExp_pack_ofInt (s : BitVec 1) (m : BitVec 39) {pe : Int} (h0 : 0 ≤ pe) (h : pe ≤ 255) :
    (packedExp (pack s m (BitVec.ofInt 8 pe))).toNat = pe.toNat := by
  rw [packedExp_pack, toNat_ofInt_of_range h0 (by norm_num; omega)]

/-- A sign bit is 0 or 1. -/
theorem bit_cases (s : BitVec 1) : s = 0 ∨ s = 1 := by
  revert s
  decide

/-! The decoding to binary64 (41_decode.md R101). -/

theorem decoded64_toNat (p : Packed) (h : p ≠ 0) : (decoded64 p).toNat =
    p.toNat / 2 ^ 47 * 2 ^ 63 + (p.toNat % 2 ^ 8 + 894) * 2 ^ 52 + p.toNat / 2 ^ 8 % 2 ^ 39 * 2 ^ 13 := by
  have hp := p.isLt
  rw [decoded64, if_neg h, toNat_append_add, toNat_append_add, toNat_append_add, packedSign_toNat, packedMant_toNat,
    toNat_ofInt_of_range (by omega) (by have := (packedExp p).isLt; norm_num; omega), packedExp_toNat,
    show (0 : BitVec 13).toNat = 0 from rfl]
  omega

theorem decoded64_zero : decoded64 0 = 0 := rfl

theorem f64Sign_decoded64 (p : Packed) : f64Sign (decoded64 p) = packedSign p := by
  by_cases h : p = 0
  · subst h; rfl
  apply BitVec.eq_of_toNat_eq
  have h1 : p.toNat / 2 ^ 47 < 2 := by have := p.isLt; omega
  have h2 : p.toNat % 2 ^ 8 < 2 ^ 8 := Nat.mod_lt _ (by norm_num)
  have h3 : p.toNat / 2 ^ 8 % 2 ^ 39 < 2 ^ 39 := Nat.mod_lt _ (by norm_num)
  rw [f64Sign_toNat, decoded64_toNat p h, packedSign_toNat]
  omega

theorem f64Exp_decoded64 (p : Packed) (h : p ≠ 0) : (f64Exp (decoded64 p)).toNat = (packedExp p).toNat + 894 := by
  rw [f64Exp_toNat, decoded64_toNat p h, packedExp_toNat]
  have h2 : p.toNat % 2 ^ 8 < 2 ^ 8 := Nat.mod_lt _ (by norm_num)
  have h3 : p.toNat / 2 ^ 8 % 2 ^ 39 < 2 ^ 39 := Nat.mod_lt _ (by norm_num)
  generalize p.toNat / 2 ^ 47 = s at *
  generalize p.toNat % 2 ^ 8 = e at *
  generalize p.toNat / 2 ^ 8 % 2 ^ 39 = m at *
  omega

theorem f64Mant_decoded64 (p : Packed) : (f64Mant (decoded64 p)).toNat = (packedMant p).toNat * 2 ^ 13 := by
  by_cases h : p = 0
  · subst h; rfl
  have := p.isLt
  rw [f64Mant_toNat, decoded64_toNat p h, packedMant_toNat]
  omega

/-- DEC64 never gives a NaN or an Infinity (41_decode.md R105). -/
theorem f64Exp_decoded64_le (p : Packed) : (f64Exp (decoded64 p)).toNat ≤ 1149 := by
  by_cases h : p = 0
  · subst h; decide
  · have := (packedExp p).isLt
    rw [f64Exp_decoded64 p h]
    omega

theorem f64Exp_decoded64_ne (p : Packed) : f64Exp (decoded64 p) ≠ 2047 := by
  intro h
  have h1 := f64Exp_decoded64_le p
  rw [h] at h1
  exact absurd h1 (by decide)

@[simp] theorem isNaN64_decoded64 (p : Packed) : isNaN64 (decoded64 p) = false := by
  rw [isNaN64, beq_eq_false_iff_ne.mpr (f64Exp_decoded64_ne p), Bool.false_and]

@[simp] theorem isInf64_decoded64 (p : Packed) : isInf64 (decoded64 p) = false := by
  rw [isInf64, beq_eq_false_iff_ne.mpr (f64Exp_decoded64_ne p), Bool.false_and]

theorem isZero64_decoded64 (p : Packed) : isZero64 (decoded64 p) = decide (p = 0) := by
  by_cases h : p = 0
  · subst h; rfl
  · have h1 := f64Exp_decoded64 p h
    have : f64Exp (decoded64 p) ≠ 0 := by
      intro h0
      rw [h0] at h1
      simp at h1
    rw [isZero64, beq_eq_false_iff_ne.mpr this, Bool.false_and, decide_eq_false h]

/-- The magnitude of the decoding: the same number in the other unit, 2^-1074 for 2^-168 (41_decode.md R105). -/
theorem f64Magnitude_decoded64 (p : Packed) : f64Magnitude (decoded64 p) = packedMagnitude p * 2 ^ 906 := by
  by_cases h : p = 0
  · subst h
    rw [show packedMagnitude 0 = 0 from rfl, Nat.zero_mul]
    rfl
  rw [f64Magnitude, fieldMagnitude, f64Exp_decoded64 p h, f64Mant_decoded64, if_neg (by omega), packedMagnitude, if_neg h,
    show (packedExp p).toNat + 894 - 1 = (packedExp p).toNat + 893 by omega, pow_add,
    show (2 : ℕ) ^ 906 = 2 ^ 13 * 2 ^ 893 from pow_add 2 13 893]
  generalize (2 : ℕ) ^ 893 = k
  ring

theorem f64Scaled_decoded64 (p : Packed) : f64Scaled (decoded64 p) = packedScaled p * 2 ^ 906 := by
  rw [f64Scaled, f64Sign_decoded64, f64Magnitude_decoded64, packedScaled]
  split_ifs
  · rw [Nat.cast_mul, Nat.cast_pow, Nat.cast_ofNat, neg_mul]
  · rw [Nat.cast_mul, Nat.cast_pow, Nat.cast_ofNat]

/-- `f64val(DEC64(p)) = val(p)` (41_decode.md R105). -/
theorem f64val_decoded64 (p : Packed) : f64val (decoded64 p) = val p := by
  rw [f64val, f64Scaled_decoded64, val]
  rw [Int.cast_mul, Int.cast_pow, Int.cast_ofNat, show (2 : ℚ) ^ 1074 = 2 ^ 168 * 2 ^ 906 from pow_add 2 168 906, mul_div_mul_right _ _ (by positivity)]

/-! The magnitude of a PackedFloat48 (10_state.md R30). -/

theorem packedMagnitude_eq_zero (p : Packed) : packedMagnitude p = 0 ↔ p = 0 := by
  unfold packedMagnitude
  split_ifs with h
  · exact ⟨fun _ => h, fun _ => rfl⟩
  · exact ⟨fun h0 => absurd h0 (by positivity), fun h0 => absurd h0 h⟩

theorem packedMagnitude_lt (p : Packed) : packedMagnitude p < 2 ^ 295 := by
  unfold packedMagnitude
  split_ifs
  · positivity
  · have h1 := (packedMant p).isLt
    have h2 : 2 ^ (packedExp p).toNat ≤ 2 ^ 255 :=
      Nat.pow_le_pow_right (by norm_num) (by have := (packedExp p).isLt; omega)
    calc _ < 2 ^ 40 * 2 ^ (packedExp p).toNat := Nat.mul_lt_mul_of_pos_right (by omega) (by positivity)
      _ ≤ 2 ^ 40 * 2 ^ 255 := Nat.mul_le_mul_left _ h2
      _ = 2 ^ 295 := by rw [← pow_add]

theorem le_packedMagnitude (p : Packed) (h : p ≠ 0) : 2 ^ 39 ≤ packedMagnitude p := by
  unfold packedMagnitude
  rw [if_neg h]
  have : 1 ≤ 2 ^ (packedExp p).toNat := Nat.one_le_two_pow
  nlinarith [(packedMant p).toNat.zero_le]

end Sys2Proof.Machine
end

