-- ==== Sys2Proof/Laws/Arith.lean ====
section
/-! SUPPORT. The binary64 operations on decoded operands: none is special, so each is one rounding of the exact result, and the
exact result is far from overflow (43_arith.md R142, R148). -/

namespace Sys2Proof.Machine

theorem two_pow_pos (k : Nat) : 0 < 2 ^ k := Nat.pow_pos (by norm_num)

theorem f64Magnitude_decoded64_lt (p : Packed) : f64Magnitude (decoded64 p) < 2 ^ 1201 := by
  rw [f64Magnitude_decoded64]
  calc _ < 2 ^ 295 * 2 ^ 906 := Nat.mul_lt_mul_of_pos_right (packedMagnitude_lt p) (two_pow_pos _)
    _ = 2 ^ 1201 := (pow_add 2 295 906).symm

theorem le_f64Magnitude_decoded64 (p : Packed) (hp : p ≠ 0) : 2 ^ 945 ≤ f64Magnitude (decoded64 p) := by
  rw [f64Magnitude_decoded64]
  calc 2 ^ 945 = 2 ^ 39 * 2 ^ 906 := pow_add 2 39 906
    _ ≤ _ := Nat.mul_le_mul_right _ (le_packedMagnitude p hp)

theorem packedScaled_natAbs (p : Packed) : (packedScaled p).natAbs = packedMagnitude p := by
  rw [packedScaled]
  split_ifs <;> simp

/-- A zero exact result rounds to a zero. -/
theorem round64_zero (s : BitVec 1) (den : Nat) : round64 s 0 den = signed64 s 0 := by
  rw [round64, roundMagnitude]
  simp [gridShift, nearestEven]

/-- A zero of either sign encodes to the zero pattern (40_encode.md R82). -/
theorem enc64_zero (s : BitVec 1) : enc64 (signed64 s 0) = ok (0 : Packed) := by
  rcases bit_cases s with h | h <;> rw [h] <;> decide

theorem add64_decoded (a b : Packed) : add64 (decoded64 a) (decoded64 b) =
    round64 (sumSign (decoded64 a) (decoded64 b)) (f64Scaled (decoded64 a) + f64Scaled (decoded64 b)).natAbs 1 := by
  simp [add64]

theorem neg64_fields (x : Binary64) :
    f64Exp (neg64 x) = f64Exp x ∧ f64Mant (neg64 x) = f64Mant x ∧ f64Sign (neg64 x) = f64Sign x ^^^ 1 := by
  refine ⟨?_, ?_, ?_⟩ <;> apply BitVec.eq_of_getLsbD_eq <;> intro i hi <;>
    simp [f64Exp, f64Mant, f64Sign, neg64] <;> interval_cases i <;> simp

theorem neg64_scaled (x : Binary64) : f64Scaled (neg64 x) = -f64Scaled x := by
  obtain ⟨h1, h2, h3⟩ := neg64_fields x
  rw [f64Scaled, f64Scaled, f64Magnitude, f64Magnitude, h1, h2, h3]
  rcases bit_cases (f64Sign x) with h | h <;> rw [h] <;> simp

theorem sub64_decoded (a b : Packed) : sub64 (decoded64 a) (decoded64 b) =
    round64 (sumSign (decoded64 a) (neg64 (decoded64 b)))
      (f64Scaled (decoded64 a) + f64Scaled (neg64 (decoded64 b))).natAbs 1 := by
  obtain ⟨h1, h2, h3⟩ := neg64_fields (decoded64 b)
  have hn : isNaN64 (neg64 (decoded64 b)) = false := by rw [isNaN64, h1, h2]; exact isNaN64_decoded64 b
  have hi : isInf64 (neg64 (decoded64 b)) = false := by rw [isInf64, h1, h2]; exact isInf64_decoded64 b
  simp [sub64, add64, hn, hi]

theorem mul64_decoded (a b : Packed) : mul64 (decoded64 a) (decoded64 b) =
    round64 (packedSign a ^^^ packedSign b) (f64Magnitude (decoded64 a) * f64Magnitude (decoded64 b)) (2 ^ 1074) := by
  simp [mul64, f64Sign_decoded64]

theorem div64_decoded (a b : Packed) (hb : b ≠ 0) : div64 (decoded64 a) (decoded64 b) =
    round64 (packedSign a ^^^ packedSign b) (f64Magnitude (decoded64 a) * 2 ^ 1074) (f64Magnitude (decoded64 b)) := by
  unfold div64
  rw [isNaN64_decoded64, isNaN64_decoded64, isInf64_decoded64, isInf64_decoded64, isZero64_decoded64 b,
    decide_eq_false hb, f64Sign_decoded64, f64Sign_decoded64]
  rfl

/-- The signed exact sum of two finite values, in the form `round64` takes. -/
theorem sumSign_value (x y : Binary64) :
    (if sumSign x y = 1 then (-1 : ℚ) else 1) * (((f64Scaled x + f64Scaled y).natAbs : ℚ) / (1 : ℕ)) / 2 ^ 1074 =
      f64val x + f64val y := by
  have key : (if sumSign x y = 1 then (-1 : ℚ) else 1) * ((f64Scaled x + f64Scaled y).natAbs : ℚ) =
      ((f64Scaled x + f64Scaled y : ℤ) : ℚ) := by
    unfold sumSign
    rcases lt_trichotomy (f64Scaled x + f64Scaled y) 0 with h | h | h
    · rw [if_pos h, if_pos rfl, ← Int.cast_natCast, Int.ofNat_natAbs_of_nonpos h.le, Int.cast_neg]
      ring
    · simp [h]
    · rw [if_neg h.not_gt, if_neg h.ne', ← Int.cast_natCast, Int.natAbs_of_nonneg h.le]
      simp
  rw [Nat.cast_one, div_one, key, f64val, f64val, ← add_div, Int.cast_add]

/-- The sign of a product or quotient. -/
theorem sign_xor (s t : BitVec 1) :
    (if s ^^^ t = 1 then (-1 : ℚ) else 1) = (if s = 1 then -1 else 1) * (if t = 1 then -1 else 1) := by
  rcases bit_cases s with h | h <;> rcases bit_cases t with h' | h' <;> rw [h, h'] <;> simp

/-- `val(p)` in the form the operations take it. -/
theorem val_eq_f64Magnitude (p : Packed) :
    val p = (if packedSign p = 1 then -1 else 1) * (f64Magnitude (decoded64 p) : ℚ) / 2 ^ 1074 := by
  rw [← f64val_decoded64, f64val_eq, f64Sign_decoded64]

end Sys2Proof.Machine
end

