-- ==== Sys2Proof/Laws/Codec.lean ====
section
/-! SUPPORT. The codec field by field: when the encoder accepts, the fields of what it packs and of what DEC32 unpacks, and
patterns that agree in their fields are equal. -/

namespace Sys2Proof.Machine

theorem f32Exp_eq_zero (f : Binary32) : f32Exp f = 0 ↔ (f32Exp f).toNat = 0 := eq_ofNat_iff_toNat _ 0 (by norm_num)

theorem f32Exp_eq_ones (f : Binary32) : f32Exp f = 255 ↔ (f32Exp f).toNat = 255 := eq_ofNat_iff_toNat _ 255 (by norm_num)

theorem f64Exp_eq_zero (d : Binary64) : f64Exp d = 0 ↔ (f64Exp d).toNat = 0 := eq_ofNat_iff_toNat _ 0 (by norm_num)

theorem f64Exp_eq_ones (d : Binary64) : f64Exp d = 2047 ↔ (f64Exp d).toNat = 2047 :=
  eq_ofNat_iff_toNat _ 2047 (by norm_num)

/-- What ENC32 packs when it accepts a normal `f`. -/
def packed32 (f : Binary32) : Packed :=
  pack (f32Sign f) (f32Mant f ++ (0 : BitVec 16)) (BitVec.ofInt 8 ((f32Exp f).toNat + 2))

/-- What ENC64 packs when it accepts a normal `d`. -/
def packed64 (d : Binary64) : Packed :=
  pack (f64Sign d) ((f64Mant d).extractLsb' 13 39) (BitVec.ofInt 8 ((f64Exp d).toNat - 894))

/-- What DEC32 unpacks when it accepts `p`. -/
def unpacked32 (p : Packed) : Binary32 :=
  packedSign p ++ BitVec.ofInt 8 ((packedExp p).toNat - 2) ++ (packedMant p).extractLsb' 16 23

theorem enc32_in_band (f : Binary32) (h1 : 1 ≤ (f32Exp f).toNat) (h2 : (f32Exp f).toNat ≤ 253) :
    enc32 f = ok (packed32 f) := by
  rw [enc32, if_neg (by rw [f32Exp_eq_zero]; omega), if_neg (by rw [f32Exp_eq_ones]; omega), packInBand_eq,
    if_pos (by omega)]
  rfl

theorem enc64_in_band (d : Binary64) (h1 : 895 ≤ (f64Exp d).toNat) (h2 : (f64Exp d).toNat ≤ 1149) :
    enc64 d = ok (packed64 d) := by
  rw [enc64, if_neg (by rw [f64Exp_eq_zero]; omega), if_neg (by rw [f64Exp_eq_ones]; omega), packInBand_eq,
    if_pos (by omega)]
  rfl

theorem enc64_out_of_band (d : Binary64) (h0 : 1 ≤ (f64Exp d).toNat) (h1 : (f64Exp d).toNat ≤ 2046)
    (h2 : (f64Exp d).toNat < 895 ∨ 1149 < (f64Exp d).toNat) : enc64 d = raise .rangeOverflow := by
  rw [enc64, if_neg (by rw [f64Exp_eq_zero]; omega), if_neg (by rw [f64Exp_eq_ones]; omega), packInBand_eq,
    if_neg (by omega)]

theorem packed32_fields (f : Binary32) (h2 : (f32Exp f).toNat ≤ 253) :
    packedSign (packed32 f) = f32Sign f ∧ (packedExp (packed32 f)).toNat = (f32Exp f).toNat + 2 ∧
    (packedMant (packed32 f)).toNat = (f32Mant f).toNat * 2 ^ 16 := by
  refine ⟨packedSign_pack _ _ _, ?_, ?_⟩
  · rw [packed32, packedExp_pack_ofInt _ _ (by omega) (by omega)]
    omega
  · rw [packed32, packedMant_pack, toNat_append_add, show (0 : BitVec 16).toNat = 0 from rfl, Nat.add_zero]

theorem packed64_fields (d : Binary64) (h1 : 895 ≤ (f64Exp d).toNat) (h2 : (f64Exp d).toNat ≤ 1149) :
    packedSign (packed64 d) = f64Sign d ∧ (packedExp (packed64 d)).toNat = (f64Exp d).toNat - 894 ∧
    (packedMant (packed64 d)).toNat = (f64Mant d).toNat / 2 ^ 13 := by
  refine ⟨packedSign_pack _ _ _, ?_, ?_⟩
  · rw [packed64, packedExp_pack_ofInt _ _ (by omega) (by omega)]
    omega
  · have := (f64Mant d).isLt
    rw [packed64, packedMant_pack, toNat_extract, Nat.mod_eq_of_lt]
    omega

theorem ne_zero_of_packedExp (p : Packed) (h : 1 ≤ (packedExp p).toNat) : p ≠ 0 := by
  intro h0
  rw [h0, packedExp_toNat] at h
  simp at h

theorem dec32_in_band (p : Packed) (h : 3 ≤ (packedExp p).toNat) : dec32 p = ok (unpacked32 p) := by
  rw [dec32, if_neg (ne_zero_of_packedExp p (by omega)), if_neg (by omega)]
  rfl

theorem unpacked32_fields (p : Packed) (h : 3 ≤ (packedExp p).toNat) :
    f32Sign (unpacked32 p) = packedSign p ∧ (f32Exp (unpacked32 p)).toNat = (packedExp p).toNat - 2 ∧
    (f32Mant (unpacked32 p)).toNat = (packedMant p).toNat / 2 ^ 16 := by
  have h1 := (packedExp p).isLt
  have h2 := (packedMant p).isLt
  have h3 := (packedSign p).isLt
  have e : (unpacked32 p).toNat =
      (packedSign p).toNat * 2 ^ 31 + ((packedExp p).toNat - 2) * 2 ^ 23 + (packedMant p).toNat / 2 ^ 16 := by
    rw [unpacked32, toNat_append_add, toNat_append_add, toNat_ofInt_of_range (by omega) (by norm_num; omega),
      toNat_extract]
    omega
  refine ⟨BitVec.eq_of_toNat_eq ?_, ?_, ?_⟩
  · rw [f32Sign_toNat, e]
    omega
  · rw [f32Exp_toNat, e]
    omega
  · rw [f32Mant_toNat, e]
    omega

/-- Canonical, by the exponent field (00_scope.md R18). -/
theorem isCanonical_iff (p : Packed) : isCanonical p = true ↔ p = 0 ∨ 1 ≤ (packedExp p).toNat := by
  rw [isCanonical, Bool.or_eq_true, beq_iff_eq, bne_iff_ne]
  refine or_congr Iff.rfl ⟨fun h => ?_, fun h h0 => ?_⟩
  · by_contra hc
    exact h (BitVec.eq_of_toNat_eq (by simp; omega))
  · rw [h0] at h
    simp at h

theorem binary32_ext {f g : Binary32} (h1 : f32Sign f = f32Sign g) (h2 : (f32Exp f).toNat = (f32Exp g).toNat)
    (h3 : (f32Mant f).toNat = (f32Mant g).toNat) : f = g := by
  apply BitVec.eq_of_toNat_eq
  have h1' := congrArg BitVec.toNat h1
  rw [f32Sign_toNat, f32Sign_toNat] at h1'
  rw [f32Exp_toNat, f32Exp_toNat] at h2
  rw [f32Mant_toNat, f32Mant_toNat] at h3
  have := f.isLt
  have := g.isLt
  omega

theorem binary64_ext {d e : Binary64} (h1 : f64Sign d = f64Sign e) (h2 : (f64Exp d).toNat = (f64Exp e).toNat)
    (h3 : (f64Mant d).toNat = (f64Mant e).toNat) : d = e := by
  apply BitVec.eq_of_toNat_eq
  have h1' := congrArg BitVec.toNat h1
  rw [f64Sign_toNat, f64Sign_toNat] at h1'
  rw [f64Exp_toNat, f64Exp_toNat] at h2
  rw [f64Mant_toNat, f64Mant_toNat] at h3
  have := d.isLt
  have := e.isLt
  omega

theorem packed_ext {p q : Packed} (h1 : packedSign p = packedSign q) (h2 : (packedExp p).toNat = (packedExp q).toNat)
    (h3 : (packedMant p).toNat = (packedMant q).toNat) : p = q := by
  rw [← pack_fields p, ← pack_fields q, h1, BitVec.eq_of_toNat_eq h2, BitVec.eq_of_toNat_eq h3]

end Sys2Proof.Machine
end

