-- ==== Sys2Proof/Laws/PerInstr.lean ====
section
/-! SUPPORT. One lemma for each constructor of Instr: the encoder puts the operation's `req_op` in bits 115:112
(30_encoding.md R60, R61). -/

namespace Sys2Proof.Laws.OpcodeField

open Sys2Proof.Machine

/-- The operation select of an instruction's request word is the one R61 gives the operation. -/
def Statement (i : Instr) : Prop := reqOp (encode i) = i.opcode

theorem enc32 (f : Binary32) : Statement (.enc32 f) := reqOp_requestWord _ _ _
theorem enc64 (d : Binary64) : Statement (.enc64 d) := reqOp_requestWord _ _ _
theorem dec32 (p : Packed) : Statement (.dec32 p) := reqOp_requestWord _ _ _
theorem dec64 (p : Packed) : Statement (.dec64 p) := reqOp_requestWord _ _ _
theorem classify (p : Packed) : Statement (.classify p) := reqOp_requestWord _ _ _
theorem pos (p : Packed) : Statement (.pos p) := reqOp_requestWord _ _ _
theorem neg (p : Packed) : Statement (.neg p) := reqOp_requestWord _ _ _
theorem cmp (a b : Packed) : Statement (.cmp a b) := reqOp_requestWord _ _ _
theorem cmplt (a b : Packed) : Statement (.cmplt a b) := reqOp_requestWord _ _ _
theorem cmpgt (a b : Packed) : Statement (.cmpgt a b) := reqOp_requestWord _ _ _
theorem add (a b : Packed) : Statement (.add a b) := reqOp_requestWord _ _ _
theorem sub (a b : Packed) : Statement (.sub a b) := reqOp_requestWord _ _ _
theorem mul (a b : Packed) : Statement (.mul a b) := reqOp_requestWord _ _ _
theorem div (a b : Packed) : Statement (.div a b) := reqOp_requestWord _ _ _
theorem reservedE : Statement .reservedE := reqOp_requestWord _ _ _
theorem reservedF : Statement .reservedF := reqOp_requestWord _ _ _

end Sys2Proof.Laws.OpcodeField
end

