-- ==== Sys2Proof/Machine/HostText.lean ====
section
/-! DEFINITION. The written form of host-program lines (30_encoding.md R67 to R69), read into `HostLine`. What the rules leave
open of the writing (blanks, the letters of a variable's name, lower-case digits) is log 11. -/

namespace Sys2Proof.Machine

/-- The value of a hexadecimal digit. -/
def hexDigit (c : Char) : Option Nat :=
  if '0' ≤ c ∧ c ≤ '9' then some (c.toNat - 48)
  else if 'A' ≤ c ∧ c ≤ 'F' then some (c.toNat - 55)
  else if 'a' ≤ c ∧ c ≤ 'f' then some (c.toNat - 87)
  else none

/-- The value of a run of hexadecimal digits, the most significant first. -/
def hexValue (ds : List Char) : Option Nat := ds.foldlM (fun n c => (hexDigit c).map (16 * n + ·)) 0

/-- How a mnemonic is spelt (30_encoding.md R61, R67: "Mnemonics are upper case"). -/
def Mnemonic.text : Mnemonic → String
  | .ENC32 => "ENC32"
  | .ENC64 => "ENC64"
  | .DEC32 => "DEC32"
  | .DEC64 => "DEC64"
  | .CLASS => "CLASS"
  | .POS => "POS"
  | .NEG => "NEG"
  | .CMP => "CMP"
  | .CMPLT => "CMPLT"
  | .CMPGT => "CMPGT"
  | .ADD => "ADD"
  | .SUB => "SUB"
  | .MUL => "MUL"
  | .DIV => "DIV"

/-- The mnemonic that a word spells. -/
def readMnemonic (w : List Char) : Option Mnemonic :=
  [Mnemonic.ENC32, .ENC64, .DEC32, .DEC64, .CLASS, .POS, .NEG, .CMP, .CMPLT, .CMPGT, .ADD, .SUB, .MUL, .DIV].find?
    (fun m => m.text.toList == w)

/-- A variable's name: a letter or `_`, then letters, digits and `_`. The spec does not say whether a variable may be named MIN,
MAX or EPSILON: DESIGN CHOICE, it may, as a destination or receiver (log 11). -/
def readVar : List Char → Option VarName
  | [] => none
  | c :: cs =>
    if (c.isAlpha || c == '_') && cs.all (fun d => d.isAlphanum || d == '_') then some (c :: cs) else none

/-- An operand: `0x` and 8, 12 or 16 digits, the name of a constant, or the name of a variable (30_encoding.md R67). MIN, MAX and
EPSILON are always the constants here, also where a variable has that name: DESIGN CHOICE (log 11). -/
def readOperand : List Char → Option HostOperand
  | '0' :: 'x' :: ds =>
    (hexValue ds).bind fun n =>
      match ds.length with
      | 8 => some (.lit32 (BitVec.ofNat 32 n))
      | 12 => some (.lit48 (BitVec.ofNat 48 n))
      | 16 => some (.lit64 (BitVec.ofNat 64 n))
      | _ => none
  | w =>
    if w = "MIN".toList then some (.const .MIN)
    else if w = "MAX".toList then some (.const .MAX)
    else if w = "EPSILON".toList then some (.const .EPSILON)
    else (readVar w).map .var

/-- The operation of a `.req` line, `0x` and one digit (30_encoding.md R67). -/
def readReserved : List Char → Option OpSelect
  | ['0', 'x', d] => (hexDigit d).map (BitVec.ofNat 4)
  | _ => none

/-- The operation that a compound assignment performs (30_encoding.md R69). -/
def readCompound (w : List Char) : Option (VarName → HostOperand → HostLine) :=
  if w = "ADDA".toList then some .adda
  else if w = "SUBA".toList then some .suba
  else if w = "MULA".toList then some .mula
  else if w = "DIVA".toList then some .diva
  else none

/-- The words of a line, a comma being one of its own; `;` starts a comment (30_encoding.md R67). `cur` holds the letters of
the word being read, the last one first. -/
def lineWords (cur : List Char) : List Char → List (List Char)
  | [] => if cur.isEmpty then [] else [cur.reverse]
  | c :: cs =>
    let done := if cur.isEmpty then [] else [cur.reverse]
    if c == ';' then done
    else if c == ',' then done ++ [','] :: lineWords [] cs
    else if c.isWhitespace then done ++ lineWords [] cs
    else lineWords (c :: cur) cs

/-- `MNEMONIC a` or `MNEMONIC a, b`, whose result goes to `dest` (30_encoding.md R67, R68). -/
def readRequest (dest : Option VarName) : List (List Char) → Option HostLine
  | [m, a] => do return .request dest (← readMnemonic m) (← readOperand a) none
  | [m, a, [','], b] => do return .request dest (← readMnemonic m) (← readOperand a) (some (← readOperand b))
  | _ => none

/-- A line's words without the request forms: `NEGA x`, `ZERO x`, `LDC x, K`, the compound assignments and `.req`
(30_encoding.md R67, R69). -/
def readOther : List (List Char) → Option HostLine
  | [k, x] =>
    if k = "NEGA".toList then (readVar x).map .nega
    else if k = "ZERO".toList then (readVar x).map .zero
    else none
  | [k, x, [','], b] =>
    if k = "LDC".toList then do return .ldc (← readVar x) (← readOperand b)
    else do return (← readCompound k) (← readVar x) (← readOperand b)
  | [k, op, [','], a, [','], b] =>
    if k = ".req".toList then do return .reserved (← readReserved op) (← readOperand a) (← readOperand b) else none
  | _ => none

/-- One written line: no line where it is blank or a comment, else the well-formed line it writes (30_encoding.md R67 to
R69). -/
def readLine (text : List Char) : Option (List HostLine) :=
  match lineWords [] text with
  | [] => some []
  | x :: ['<', '-'] :: ws => do
    let l ← readRequest (some (← readVar x)) ws
    if l.wellFormed then return [l] else none
  | ws => do
    let l ← (readRequest none ws).or (readOther ws)
    if l.wellFormed then return [l] else none

/-- A written program, one entry for each of its lines (30_encoding.md R67 to R69). -/
def readProgram (lines : List String) : Option (List HostLine) :=
  (lines.mapM fun l => readLine l.toList).map List.flatten

end Sys2Proof.Machine
end

