-- ==== Sys2Proof/Tests/Slice0.lean ====
section
/-! SUPPORT. The model's own tests. Words and results are those of 95_test_vectors.md, the section named beside each; then the
witnesses that each statement's hypotheses can be met. -/

set_option Elab.async false
namespace Sys2Proof.Tests

open Sys2Proof.Machine

/-! ### Well-formedness -/

/-- The one check on a number offered as a request refuses a number one bit too wide (30_encoding.md R60). -/
theorem test_wide_number_refused :
    isRequestWord (2 ^ 116) = false ∧ decodeNat (2 ^ 116) = .error .widerThanRequest ∧
    decodeTableWord 120 (2 ^ 116) = none := by decide

/-- No instruction is ill-formed (30_encoding.md R64, R66). -/
theorem test_no_instruction_ill_formed (i : Instr) : i.wellFormed = true := by cases i <;> rfl

/-- Lines the host-program check refuses: a missing and a spare second operand, a 64-bit literal on `req_b`, and `.req` with an
operation that is not reserved (30_encoding.md R67). -/
theorem test_ill_formed_lines_refused :
    (HostLine.request none .ADD (.lit48 1) none).wellFormed = false ∧
    (HostLine.request none .NEG (.lit48 1) (some (.lit48 1))).wellFormed = false ∧
    (HostLine.request none .ADD (.lit48 1) (some (.lit64 1))).wellFormed = false ∧
    (HostLine.reserved 0xD (.lit48 1) (.lit48 1)).wellFormed = false ∧
    (HostLine.reserved 0xE (.lit48 1) (.lit64 1)).wellFormed = false := by decide

/-! ### Decoding: the request words of 95_test_vectors.md, one for each operation -/

theorem test_decode_enc32 : decode 0x0000000003DCCCCCD000000000000 = .enc32 0x3DCCCCCD := by decide
theorem test_decode_enc64 : decode 0x14000000000000000000000000000 = .enc64 0x4000000000000000 := by decide
theorem test_decode_dec32 : decode 0x20000200000000083000000000000 = .dec32 0x200000000083 := by decide
theorem test_decode_dec64 : decode 0x30000200000000083000000000000 = .dec64 0x200000000083 := by decide
theorem test_decode_class : decode 0x40000200000000083000000000000 = .classify 0x200000000083 := by decide
/-- R60 and R61: 0x5, then 16 digits of `req_a`, then 12 of `req_b`. The bits POS ignores are set (30_encoding.md R62). -/
theorem test_decode_pos : decode 0x5FFFF800000000081FFFFFFFFFFFF = .pos 0x800000000081 := by decide
theorem test_decode_neg : decode 0x600007FFFFFFFFFFF000000000000 = .neg 0x7FFFFFFFFFFF := by decide
theorem test_decode_cmp : decode 0x70000FFFFFFFFFFFF7FFFFFFFFFFF = .cmp 0xFFFFFFFFFFFF 0x7FFFFFFFFFFF := by decide
/-- R60 and R61: 0x8, then `req_a`, then `req_b`. -/
theorem test_decode_cmplt : decode 0x80000000000000081000000000082 = .cmplt 0x000000000081 0x000000000082 := by decide
/-- R60 and R61: 0x9, then `req_a`, then `req_b`. -/
theorem test_decode_cmpgt : decode 0x9ABCD000000000181000000000081 = .cmpgt 0x000000000181 0x000000000081 := by decide
theorem test_decode_add : decode 0xA0000000000000082400000000082 = .add 0x000000000082 0x400000000082 := by decide
theorem test_decode_sub : decode 0xB00007FFFFFFFFFFF7FFFFFFFFFFF = .sub 0x7FFFFFFFFFFF 0x7FFFFFFFFFFF := by decide
theorem test_decode_mul : decode 0xC00007FFFFFFFFFFF000000000082 = .mul 0x7FFFFFFFFFFF 0x000000000082 := by decide
theorem test_decode_div : decode 0xD0000000000000081000000000082 = .div 0x000000000081 0x000000000082 := by decide
theorem test_decode_reserved :
    decode 0xE0000000000000000000000000000 = .reservedE ∧ decode 0xF0000000000000000000000000000 = .reservedF := by decide

/-- A word in the opcode table's numbering is its `req_op` with operands of zeros (log 5). -/
theorem test_table_word : decodeTableWord 8 0xA = some (.add 0 0) ∧ decodeTableWord 8 0xF = some .reservedF := by decide

/-! ### Results, by one step from reset -/

/-- What the ports show after one step from reset (LATENCY 1) at which a request is presented. -/
def answer (op : OpSelect) (a : Data) (b : Packed) : Option (Bool × Data × StatusCode) :=
  match step (State.reset.withPort [⟨false, true, op, a, b⟩]) with
  | .next t => some (t.rspValid, t.rspData, t.rspStatus)
  | .fault _ => none
  | .refused _ => none

/-- 2.1: the sign is kept and the mantissa left-aligned; exponent field 254 overflows; `req_a[63:32]` is ignored. -/
theorem test_enc32 :
    answer 0x0 0xC0200000 0 = some (true, 0x0000A00000000082, 0) ∧
    answer 0x0 0x7F000000 0 = some (true, 0, 1) ∧
    answer 0x0 0xFFFFFFFF3F800000 0 = some (true, 0x81, 0) := by decide +kernel
/-- E3, E4: a denormal flushes with OK, a signalling NaN is rejected. -/
theorem test_enc32_special :
    answer 0x0 0x80000001 0 = some (true, 0, 0) ∧ answer 0x0 0x7F800001 0 = some (true, 0, 2) := by decide +kernel
/-- 2.2: truncation, and the two ends of the band. -/
theorem test_enc64 :
    answer 0x1 0xBFF0000000003000 0 = some (true, 0x0000800000000181, 0) ∧
    answer 0x1 0x47DFFFFFFFFFFFFF 0 = some (true, 0x00007FFFFFFFFFFF, 0) ∧
    answer 0x1 0x37F0000000000000 0 = some (true, 1, 0) := by decide +kernel
/-- 2.2: just outside the band, a denormal, and a NaN. -/
theorem test_enc64_special :
    answer 0x1 0x47E0000000000000 0 = some (true, 0, 1) ∧ answer 0x1 0x37EFFFFFFFFFFFFF 0 = some (true, 0, 1) ∧
    answer 0x1 0x000FFFFFFFFFFFFF 0 = some (true, 0, 0) ∧ answer 0x1 0xFFF8000000000000 0 = some (true, 0, 2) := by
  decide +kernel
/-- 2.3: truncation, mantissa bit 16, ignored bits. -/
theorem test_dec32 :
    answer 0x2 0x7FFFFFFFFFFF 0 = some (true, 0x7EFFFFFF, 0) ∧ answer 0x2 0x000001000081 0 = some (true, 0x3F800001, 0) ∧
    answer 0x2 0xABCD000000000081 0 = some (true, 0x3F800000, 0) := by decide +kernel
/-- 2.3: zero before the exponent test; packed exponents 2 and 3; a non-canonical pattern. -/
theorem test_dec32_threshold :
    answer 0x2 0 0 = some (true, 0, 0) ∧ answer 0x2 2 0 = some (true, 0, 3) ∧ answer 0x2 3 0 = some (true, 0x800000, 0) ∧
    answer 0x2 0x800000000000 0 = some (true, 0, 3) := by decide +kernel
/-- 2.4: -MAX, EPSILON, and a non-canonical pattern. -/
theorem test_dec64 :
    answer 0x3 0xFFFFFFFFFFFF 0 = some (true, 0xC7DFFFFFFFFFE000, 0) ∧
    answer 0x3 0x5A 0 = some (true, 0x3D80000000000000, 0) ∧
    answer 0x3 0x100 0 = some (true, 0x37E0000000002000, 0) := by decide +kernel
/-- 2.5: only the all-zero pattern is ZERO. -/
theorem test_class :
    answer 0x4 0 0 = some (true, 0, 0) ∧ answer 0x4 0x800000000000 0 = some (true, 1, 0) := by decide +kernel
/-- 2.6: the identity, on a non-canonical pattern too. -/
theorem test_pos : answer 0x5 0x800000000000 0 = some (true, 0x800000000000, 0) := by decide +kernel
/-- 2.6: bit 47 is flipped; zero, and the sign-only pattern, give zero. -/
theorem test_neg :
    answer 0x6 0xFFFF000000000081 0 = some (true, 0x800000000081, 0) ∧ answer 0x6 0 0 = some (true, 0, 0) ∧
    answer 0x6 0x800000000000 0 = some (true, 0, 0) := by decide +kernel
/-- 2.7: the three codes, and a non-canonical operand below zero. -/
theorem test_cmp :
    answer 0x7 0x81 0x82 = some (true, 1, 0) ∧ answer 0x7 0x181 0x81 = some (true, 2, 0) ∧
    answer 0x7 0x81 0x81 = some (true, 0, 0) ∧ answer 0x7 0x800000000000 0 = some (true, 1, 0) := by decide +kernel
/-- 2.7. -/
theorem test_cmplt :
    answer 0x8 0x800000000081 0x81 = some (true, 1, 0) ∧ answer 0x8 0x81 0x81 = some (true, 0, 0) ∧
    answer 0x8 0x7FFFFFFFFFFF 1 = some (true, 0, 0) := by decide +kernel
/-- 2.7. -/
theorem test_cmpgt :
    answer 0x9 0 0x800000000000 = some (true, 1, 0) ∧ answer 0x9 0x81 0x81 = some (true, 0, 0) := by decide +kernel
/-- 2.8: 1 + EPSILON, double rounding, overflow. -/
theorem test_add :
    answer 0xA 0x81 0x5A = some (true, 0x181, 0) ∧ answer 0xA 0x7FFFFFFFFF81 0x7FFFF8000059 = some (true, 0x82, 0) ∧
    answer 0xA 0x7FFFFFFFFFFF 0x7FFFFFFFFFFF = some (true, 0, 1) := by decide +kernel
/-- 2.8: the order of the operands, and a non-canonical one. -/
theorem test_sub :
    answer 0xB 0x82 0x400000000082 = some (true, 0x800000000081, 0) ∧
    answer 0xB 1 0x800000000000 = some (true, 0x400000000001, 0) := by decide +kernel
/-- 2.8: -1 * 0 gives the zero pattern; MIN * MIN is too small and is not flushed. -/
theorem test_mul :
    answer 0xC 0x82 0x400000000082 = some (true, 0x400000000083, 0) ∧ answer 0xC 0x800000000081 0 = some (true, 0, 0) ∧
    answer 0xC 1 1 = some (true, 0, 1) := by decide +kernel
/-- 2.8: 1/3, and 1/0 and 0/0 rejected. -/
theorem test_div :
    answer 0xD 0x81 0x400000000082 = some (true, 0x2AAAAAAAAA7F, 0) ∧ answer 0xD 0x81 0 = some (true, 0, 2) ∧
    answer 0xD 0 0 = some (true, 0, 2) ∧ answer 0xD 1 0x82 = some (true, 0, 1) := by decide +kernel
/-- 2.9: operands are not examined. -/
theorem test_reserved :
    answer 0xE 0x81 0x81 = some (true, 0, 4) ∧ answer 0xF 0 0 = some (true, 0, 4) := by decide +kernel
/-- 2.8's binary64 intermediates that the 48-bit result hides: MAX * MAX, 2/3, and MAX + MAX. -/
theorem test_binary64_intermediates :
    mul64 0x47DFFFFFFFFFE000 0x47DFFFFFFFFFE000 = 0x4FCFFFFFFFFFC000 ∧
    div64 0x3FF0000000000000 0x4008000000000000 = 0x3FD5555555555555 ∧
    add64 0x47DFFFFFFFFFE000 0x47DFFFFFFFFFE000 = 0x47EFFFFFFFFFE000 := by decide +kernel

/-! ### The step: edges of the LATENCY = 2 table of 2.10 -/

/-- The edge ending cycle 1: the ENC64 response moves to OUT, the DIV response enters. -/
theorem test_step_shifts :
    step ⟨Slot.clear, [⟨true, 0x81, 0⟩], [⟨false, true, 0xD, 0x81, 0⟩], 0⟩ =
      .next ⟨⟨true, 0x81, 0⟩, [⟨true, 0, 2⟩], [], 0⟩ := rfl

/-- The edge ending cycle 3: OUT_VALID falls, and OUT_DATA and OUT_STATUS hold the DIV response. -/
theorem test_step_holds_last_response :
    step ⟨⟨true, 0, 2⟩, [⟨false, 7, 5⟩], [⟨false, true, 3, 0x400000000082, 0⟩], 1⟩ =
      .next ⟨⟨false, 0, 2⟩, [⟨true, 0x4008000000000000, 0⟩], [], 1⟩ := rfl

/-- The edge ending cycle 4: reset discards the request in flight and the one presented. -/
theorem test_step_reset :
    step ⟨⟨false, 0, 2⟩, [⟨true, 0x4008000000000000, 0⟩], [⟨true, true, 0, 0x3F800000, 0⟩], 1⟩ =
      .next ⟨⟨false, 0, 0⟩, [⟨false, 0, 0⟩], [], 1⟩ := rfl

/-- P1: the sum 5.0 is stored as bytes 83 00 00 00 00 20. -/
theorem test_serialize : serialize48 0x200000000083 = #v[0x83, 0, 0, 0, 0, 0x20] := by decide

/-- P2, line 2: a compound assignment that fails leaves m at MAX and records RangeOverflow. -/
theorem test_failed_compound_assignment :
    ((HostState.mk State.reset [(['m'], 0x7FFFFFFFFFFF)] []).runLine (.mula ['m'] (.lit48 0x82))).map
      (fun h => (h.get ['m'], h.outcomes)) = some (some 0x7FFFFFFFFFFF, [(0, 1)]) := by decide +kernel

/-- Written lines of P1 to P3 (95_test_vectors.md), a comment, and the `.req` form of 30_encoding.md R67. -/
theorem test_read_program :
    readProgram ["z <- ADD x, y", "MULA m, 0x000000000082   ; too large", "; only a comment", "LDC  m, MAX",
        "ENC32 0x3F800000", ".req 0xE, 0x000000000081, MIN"] =
      some [.request (some ['z']) .ADD (.var ['x']) (some (.var ['y'])),
        .request (some ['m']) .MUL (.var ['m']) (some (.lit48 0x82)), .ldc ['m'] (.const .MAX),
        .request none .ENC32 (.lit32 0x3F800000) none, .reserved 0xE (.lit48 0x81) (.const .MIN)] := by decide +kernel

/-- A literal of 10 digits, a mnemonic in lower case, a missing operand and an operation that is not reserved are refused. -/
theorem test_read_refuses :
    readLine "ENC32 0x3F80000000".toList = none ∧ readLine "add x, y".toList = none ∧ readLine "ADD x".toList = none ∧
    readLine ".req 0xD, x, y".toList = none := by decide +kernel

/-- Two agents that each have `ADDA x, 1.0` to issue, and x = 1.0. -/
def twoAdders : HostSystem :=
  ⟨⟨State.reset, [(['x'], 0x81)], []⟩, [⟨[.adda ['x'] (.lit48 0x81)], .idle⟩, ⟨[.adda ['x'] (.lit48 0x81)], .idle⟩], []⟩

/-- 70_reset_and_hazards.md R196 item 4: not serialised, x ends at 2.0 and one update is lost; serialised, x ends at 3.0. -/
theorem test_lost_update :
    (twoAdders.run [.fetch 0, .fetch 1, .clock (some 0), .store 0, .clock (some 1), .store 1]).bind (·.host.get ['x']) =
      some 0x82 ∧
    (twoAdders.run [.fetch 0, .clock (some 0), .store 0, .fetch 1, .clock (some 1), .store 1]).bind (·.host.get ['x']) =
      some 0x400000000082 := by decide +kernel

/-! ### Witnesses: a state and operands that meet each statement's hypotheses -/

/-- A LATENCY = 2 state with a request in flight, and these cycles to come. -/
def busy (cycles : List PortIn) : State := ⟨Slot.clear, [⟨true, 0x81, 0⟩], cycles, 0⟩

/-- A cycle that presents `DIV 1.0, 0`. -/
def divCycle : PortIn := ⟨false, true, 0xD, 0x81, 0⟩

/-- A cycle of reset at which a request is presented too. -/
def resetCycle : PortIn := ⟨true, true, 0x0, 0x3F800000, 0⟩

/-- IgnoredBitsHaveNoEffect: ports that differ in every bit each group of operations ignores, at the ends of each group. -/
theorem witness_ignored_bits :
    ((0x0 : OpSelect) = 0x0 ∧ (0x1FFFFFFFF : Data).toNat % 2 ^ 32 = (0xFFFFFFFF : Data).toNat % 2 ^ 32) ∧
    ((0x1 : OpSelect) = 0x1 ∧ (5 : Data) = 5) ∧
    (2 ≤ (0x2 : OpSelect).toNat ∧ (0x1000000000081 : Data).toNat % 2 ^ 48 = (0x81 : Data).toNat % 2 ^ 48) ∧
    (0x7 ≤ (0x7 : OpSelect).toNat ∧ (0x7 : OpSelect).toNat ≤ 0xD ∧ (3 : Packed) = 3) ∧
    (0x7 ≤ (0xD : OpSelect).toNat ∧ (0xD : OpSelect).toNat ≤ 0xD) ∧
    ¬ (0xE : OpSelect).toNat ≤ 0xD := by decide

/-- StepRunsDecodedRequest and EveryInstructionEntersOneResponse run on this state. -/
theorem witness_request_presented :
    (busy [divCycle]).port = divCycle :: [] ∧ divCycle.rst = false ∧ divCycle.reqValid = true := by decide

/-- StepWithoutRequest: both of its cases. -/
theorem witness_no_request :
    (busy []).port = [] ∧
    ((busy [PortIn.idle]).port = PortIn.idle :: [] ∧ PortIn.idle.rst = false ∧ PortIn.idle.reqValid = false) := by decide

/-- ResetEdgeGivesResetState and OneResetEdgeBoots. -/
theorem witness_reset_cycle : (busy [resetCycle]).port = resetCycle :: [] ∧ resetCycle.rst = true := by decide

/-- ClockEdgeMovesPipeline: LATENCY 1, where the entry comes out, and LATENCY 2, with a valid and an unused oldest stage. -/
theorem witness_clock_edge :
    ((⟨true, 1, 0⟩ : Slot) :: State.reset.pipe)[State.reset.pipe.length]? = some ⟨true, 1, 0⟩ ∧
    ((⟨true, 1, 0⟩ : Slot) :: (busy []).pipe)[(busy []).pipe.length]? = some ⟨true, 0x81, 0⟩ ∧
    ((⟨true, 1, 0⟩ : Slot) :: (State.resetAt 2).pipe)[(State.resetAt 2).pipe.length]? = some Slot.clear := by decide

/-- ResponseAfterLatency at LATENCY 1 and LATENCY 2, with a further request and an idle cycle after it. -/
theorem witness_response_after_latency :
    ((State.reset.withPort [divCycle, divCycle]).port = divCycle :: ([] ++ [divCycle]) ∧
      ([] : List PortIn).length = State.reset.pipe.length) ∧
    ((busy [divCycle, PortIn.idle, divCycle]).port = divCycle :: ([PortIn.idle] ++ [divCycle]) ∧
      [PortIn.idle].length = (busy []).pipe.length ∧ ∀ d ∈ [PortIn.idle], d.rst = false) := by decide

/-- ResponsesLeaveInRequestOrder. -/
theorem witness_request_order :
    (busy [divCycle, PortIn.idle, resetCycle]).port = [divCycle, PortIn.idle] ++ [resetCycle] ∧
    ∀ c ∈ [divCycle, PortIn.idle], c.rst = false := by decide

/-- ResetDiscardsRequestsInFlight. -/
theorem witness_reset_discards :
    (busy [resetCycle, PortIn.idle, divCycle]).port = resetCycle :: ([PortIn.idle] ++ [divCycle]) ∧ resetCycle.rst = true ∧
    ∀ d ∈ [PortIn.idle], d.rst = false ∧ d.reqValid = false := by decide

/-- StepKeepsLatency and StepKeepsResponsesLegal: a legal state with a request in flight, and a step from it. -/
theorem witness_legal_step :
    (busy [divCycle]).legal ∧ step (busy [divCycle]) = .next ⟨⟨true, 0x81, 0⟩, [⟨true, 0, 2⟩], [], 0⟩ :=
  ⟨by decide, rfl⟩

/-- UnusedFieldsNeverObserved: two different states that agree. -/
theorem witness_agreement :
    (⟨Slot.clear, [⟨false, 1, 7⟩], [divCycle], 0⟩ : State).agrees ⟨Slot.clear, [⟨false, 2, 3⟩], [divCycle], 5⟩ :=
  ⟨rfl, rfl, .cons ⟨rfl, fun h => absurd h (by decide)⟩ .nil⟩

/-- EncodedValue and RoundTripBinary32, RoundTripBinary64: the ends of the accepted exponent fields of both widths. -/
theorem witness_encoded_band :
    (f32Exp 0x00800000 ≠ 0 ∧ (f32Exp 0x00800000).toNat = 1) ∧ (f32Exp 0x7EFFFFFF).toNat = 253 ∧
    (f64Exp 0x37F0000000000000).toNat = 895 ∧ (f64Exp 0x47DFFFFFFFFFFFFF).toNat = 1149 := by decide

/-- AcceptedMagnitudes, binary64, both clauses at 2^-128 and just below it, and at the two sides of 2^127. -/
theorem witness_accepted_binary64 :
    (f64Exp 0x37F0000000000000 ≠ 0 ∧ isFinite64 0x37F0000000000000 = true ∧
      f64Scaled 0x37F0000000000000 = 2 ^ 946) ∧
    (f64Exp 0x37EFFFFFFFFFFFFF ≠ 0 ∧ f64Scaled 0x37EFFFFFFFFFFFFF < 2 ^ 946) ∧
    (f64Exp 0x47DFFFFFFFFFFFFF ≠ 0 ∧ f64Scaled 0x47DFFFFFFFFFFFFF < 2 ^ 1201) ∧
    (f64Exp 0x47E0000000000000 ≠ 0 ∧ isFinite64 0x47E0000000000000 = true ∧
      f64Scaled 0x47E0000000000000 = 2 ^ 1201) := by decide +kernel

/-- The first clause of AcceptedMagnitudes, whole, at 2^-128. -/
theorem witness_accepted_magnitude :
    (2 : ℚ) ^ (-128 : ℤ) ≤ |f64val 0x37F0000000000000| ∧ |f64val 0x37F0000000000000| < 2 ^ 127 := by
  have h : f64val 0x37F0000000000000 = 2 ^ (-128 : ℤ) := by
    rw [f64val, show f64Scaled 0x37F0000000000000 = 2 ^ 946 by decide +kernel, Int.cast_pow, Int.cast_ofNat,
      show (2 : ℚ) ^ 1074 = 2 ^ 128 * 2 ^ 946 from pow_add 2 128 946, div_mul_cancel_right₀ (pow_ne_zero _ (by norm_num)),
      zpow_neg]
    norm_cast
  rw [h]
  norm_num

/-- The second clause of AcceptedMagnitudes, whole, at 2^127. -/
theorem witness_refused_magnitude :
    ¬ ((2 : ℚ) ^ (-128 : ℤ) ≤ |f64val 0x47E0000000000000| ∧ |f64val 0x47E0000000000000| < 2 ^ 127) := by
  have h : f64val 0x47E0000000000000 = 2 ^ 127 := by
    rw [f64val, show f64Scaled 0x47E0000000000000 = 2 ^ 1201 by decide +kernel, Int.cast_pow, Int.cast_ofNat,
      show (2 : ℚ) ^ 1201 = 2 ^ 127 * 2 ^ 1074 from pow_add 2 127 1074,
      mul_div_cancel_right₀ _ (pow_ne_zero _ (by norm_num))]
  rw [h]
  norm_num

/-- AcceptedMagnitudes, binary32: 1.0 is accepted and 2^127 is not. -/
theorem witness_accepted_binary32 :
    (f32Exp 0x3F800000 ≠ 0 ∧ f32Exp 0x3F800000 ≠ 255 ∧ f32Scaled 0x3F800000 = 2 ^ 149) ∧
    (f32Exp 0x7F000000 ≠ 0 ∧ f32Exp 0x7F000000 ≠ 255 ∧ f32Scaled 0x7F000000 = 2 ^ 276) := by decide +kernel

/-- PackedResultsCanonical, AddSubCornerCases, RangeLaw, RoundTripBinary32: canonical patterns at both ends, and non-canonical
ones. -/
theorem witness_canonical :
    isCanonical 0 = true ∧ isCanonical packedMIN = true ∧ isCanonical packedMAX = true ∧
    packedMIN ≠ 0 ∧ packedSign packedMIN = 0 ∧
    isCanonical 0x800000000000 = false ∧ isCanonical 0x7FFFFFFFFF00 = false ∧ (0x7FFFFFFFFF00 : Packed) ≠ 0 := by decide

/-- Dec32Value: the smallest packed exponent that DEC32 accepts. -/
theorem witness_dec32_accepts : (3 : Packed) ≠ 0 ∧ 3 ≤ (packedExp 3).toNat := by decide

/-- EqualExactlyWhenSamePattern: equal values. -/
theorem witness_equal_values : val packedMIN = val packedMIN := rfl

/-- NegNegatesAndIsInvolution, DivEncodesNearestQuotient and MulDivCornerCases: nonzero operands that are not the sign-only
pattern. -/
theorem witness_nonzero : (0x81 : Packed) ≠ 0x800000000000 ∧ (0x81 : Packed) ≠ 0 ∧ (1 : Packed) ≠ 0 := by decide

/-- ReservedOperationsIllegal: the last operation that is not reserved. -/
theorem witness_not_reserved : (0xD : OpSelect).toNat < 0xE ∧ ¬ (0xE : OpSelect).toNat < 0xE := by decide

/-- CompoundAssignmentReplacesOnlyOnOk: a receiver that holds a value. -/
theorem witness_receiver :
    Mnemonic.isBinary .MUL = true ∧ (HostState.mk State.reset [(['x'], 0x81)] []).get ['x'] = some 0x81 := by decide

/-- EveryAgentReceivesItsOwnResponse: agents with nothing in flight, and an event. -/
theorem witness_owned : twoAdders.owned ∧ (twoAdders.event (.fetch 0)).isSome = true :=
  ⟨⟨.nil, .nil, (by rintro (_ | _ | k) ls r dest h <;> cases h),
      (by rintro (_ | _ | k) ls r dest d st h <;> cases h)⟩,
    by decide⟩

/-- CompoundAssignmentUsesTheValueRead, beside `witness_owned`: a read, the other agent's whole line, and a store. -/
theorem witness_value_read :
    Mnemonic.isBinary .ADD = true ∧ twoAdders.host.get ['x'] = some 0x81 ∧
    twoAdders.agents[0]? = some ⟨.request (some ['x']) .ADD (.var ['x']) (some (.lit48 0x81)) :: [], .idle⟩ ∧
    HostEvent.store 0 ∉ [HostEvent.fetch 1, .clock (some 1), .store 1, .clock (some 0)] ∧
    HostEvent.reset ∉ [HostEvent.fetch 1, .clock (some 1), .store 1, .clock (some 0)] ∧
    ((twoAdders.run (.fetch 0 :: [.fetch 1, .clock (some 1), .store 1, .clock (some 0)])).bind
      (·.event (.store 0))).isSome = true := by decide +kernel

/-- UnserializedAssignmentsMayLoseAnUpdate, for agents 0 and 1. -/
theorem witness_two_adders :
    twoAdders.host.block.pending = [] ∧ twoAdders.owners = [] ∧ (0 : Nat) ≠ 1 ∧
    twoAdders.agents[1]? = some ⟨.request (some ['x']) .ADD (.var ['x']) (some (.lit48 0x81)) :: [], .idle⟩ ∧
    (execRequest (Mnemonic.opcode .ADD) 0x81 0x81).status = .ok := by decide +kernel

end Sys2Proof.Tests
end

section
/-! PROOFS. The scope of the block (00_scope.md): what an implementation fixes. -/

namespace Sys2Proof.Machine

/-! LATENCY after each of the three edges (10_state.md R26). -/

@[simp] theorem State.resetEdge_latency (s : State) : s.resetEdge.latency = s.latency := by
  simp [State.latency]

@[simp] theorem State.accept_latency (s : State) (r : Response) : (s.accept r).latency = s.latency := by
  simp [State.latency]

@[simp] theorem State.idleEdge_latency (s : State) : s.idleEdge.latency = s.latency := by
  simp [State.latency]

@[simp] theorem State.withPort_latency (s : State) (cs : List PortIn) : (s.withPort cs).latency = s.latency := rfl

/-- Settles O15: each of the three edges a step can be keeps the number of stages. -/
theorem stepKeepsLatency : Obligations.StepKeepsLatency := by
  intro s t h
  obtain ⟨c, cs, -, -, rfl⟩ | ⟨c, cs, -, -, -, rfl⟩ | ⟨-, rfl⟩ := step_cases h
  · rw [State.resetEdge_latency, State.withPort_latency]
  · rw [State.accept_latency, State.withPort_latency]
  · rw [State.idleEdge_latency, State.withPort_latency]

end Sys2Proof.Machine
end

section
/-! PROOFS. The state and the edge (10_state.md R24 to R27): the reset values, the pipeline's move, and what a step is. -/

namespace Sys2Proof.Machine

/-- Settles O5: the word on the cycle's ports is the request word of the three. -/
theorem stepRunsDecodedRequest : Obligations.StepRunsDecodedRequest := by
  intro s c cs hp hr hv
  rw [step_cons hp, cycle_request _ hr hv]
  rfl

/-- Settles O6: past the list's end and in a cycle with no request alike, the step is the idle edge. -/
theorem stepWithoutRequest : Obligations.StepWithoutRequest := by
  rintro s (hp | ⟨c, cs, hp, hr, hv⟩)
  · refine ⟨unusedEntry s.bubbles, unusedEntry_v _, ?_⟩
    rw [step_nil hp, hp, List.tail_nil, ← hp]
    rfl
  · refine ⟨unusedEntry s.bubbles, unusedEntry_v _, ?_⟩
    rw [step_cons hp, cycle_idle _ hr hv, hp]
    rfl

/-- A step that samples a cycle with `rst` = 1 is the reset edge. -/
theorem step_reset {s : State} {c : PortIn} {cs : List PortIn} (h : s.port = c :: cs) (hr : c.rst = true) :
    step s = .next (s.withPort cs).resetEdge := by
  rw [step_cons h, cycle_reset _ hr]

/-- Settles O7: the fields of the state after the reset edge, one by one. -/
theorem resetEdgeGivesResetState : Obligations.ResetEdgeGivesResetState := by
  intro s c cs hp hr
  refine ⟨(s.withPort cs).resetEdge, step_reset hp hr, rfl, ?_, ?_, rfl, rfl⟩
  · rw [State.resetEdge_pipe, List.length_replicate, State.withPort_pipe]
  · intro x hx
    exact List.eq_of_mem_replicate hx

@[simp] theorem State.powerUp_port (n : Nat) (cs : List PortIn) : (State.powerUp n cs).port = cs := rfl

@[simp] theorem State.powerUp_pipe_length (n : Nat) (cs : List PortIn) : (State.powerUp n cs).pipe.length = n - 1 := by
  rw [State.powerUp, List.length_map, List.length_range]

/-- Settles O8: a reset edge forgets all of the power-up state but its LATENCY. -/
theorem oneResetEdgeBoots : Obligations.OneResetEdgeBoots := by
  intro n c cs hr
  rw [step_reset (State.powerUp_port n _) hr, State.resetEdge, State.withPort_pipe, State.powerUp_pipe_length]
  rfl

/-- `incoming` is the stage LATENCY - 1 places behind the entry (10_state.md R26). -/
theorem getElem?_length_eq_incoming (e : Slot) (pipe : List Slot) :
    (e :: pipe)[pipe.length]? = some (incoming e pipe) := by
  rw [← shift_append_incoming, List.getElem?_append_right (shift_length e pipe).le, shift_length, Nat.sub_self,
    List.getElem?_cons_zero]

/-- Settles O9: PIPE by `shift_getElem?`, OUT by the valid bit of the incoming entry. -/
theorem clockEdgeMovesPipeline : Obligations.ClockEdgeMovesPipeline := by
  intro s e x hx
  obtain rfl : incoming e s.pipe = x := by
    rw [getElem?_length_eq_incoming] at hx
    exact Option.some.inj hx
  refine ⟨shift_length _ _, fun k hk => shift_getElem? _ _ k hk, nextOut_v _ _, fun hv => ?_, fun hv => ?_, rfl, rfl⟩
  · exact nextOut_of_valid hv
  · rw [State.clockEdge_out, nextOut_of_invalid hv]
    exact ⟨rfl, rfl⟩

theorem Slot.clear_legal : Slot.clear.legal := ⟨by decide, fun _ => rfl⟩

theorem State.resetAt_legal (n : Nat) : (State.resetAt n).legal := by
  refine ⟨Slot.clear_legal, fun x hx _ => ?_⟩
  rw [List.eq_of_mem_replicate hx]
  exact Slot.clear_legal

/-- Settles O17: `State.reset` is the reset state of one LATENCY. -/
theorem resetResponsesLegal : Obligations.ResetResponsesLegal :=
  ⟨State.resetAt_legal _, State.resetAt_legal⟩

end Sys2Proof.Machine
end

section
/-! PROOFS. Runs (10_state.md R25, R26): agreement but for unused fields is kept by every step, a response is shown LATENCY
edges after its request, and responses leave in request order. -/

namespace Sys2Proof.Machine

theorem Slot.agrees_refl (x : Slot) : x.agrees x := ⟨rfl, fun _ => rfl⟩

/-- The free values of two cycles with no request need not be equal: both entries have v = 0. -/
theorem unusedEntry_agrees (m n : Nat) : (unusedEntry m).agrees (unusedEntry n) := ⟨rfl, fun h => nomatch h⟩

/-- What a cycle sends into the pipeline depends on the model's counter in its unused fields alone. -/
theorem cycleEntry_agrees (c : PortIn) (m n : Nat) : (cycleEntry c m).agrees (cycleEntry c n) := by
  unfold cycleEntry
  split
  · exact Slot.agrees_refl _
  · exact unusedEntry_agrees m n

theorem State.agrees_withPort {s t : State} (h : s.agrees t) (cs : List PortIn) :
    (s.withPort cs).agrees (t.withPort cs) :=
  ⟨h.1, rfl, h.2.2⟩

theorem State.agrees_idleEdge {s t : State} (h : s.agrees t) : s.idleEdge.agrees t.idleEdge :=
  agrees_clockEdge h (unusedEntry_agrees _ _)

theorem State.agrees_resetEdge {s t : State} (h : s.agrees t) : s.resetEdge.agrees t.resetEdge := by
  obtain ⟨-, hport, hpipe⟩ := h
  refine ⟨rfl, hport, ?_⟩
  rw [State.resetEdge_pipe, State.resetEdge_pipe, hpipe.length_eq]
  exact List.forall₂_same.mpr fun x _ => Slot.agrees_refl x

/-- States in agreement step to states in agreement: on each of the three edges the entry that enters agrees. -/
theorem step_agrees {s t : State} (h : s.agrees t) :
    ∃ s' t', step s = .next s' ∧ step t = .next t' ∧ s'.agrees t' := by
  have hport : s.port = t.port := h.2.1
  cases hp : s.port with
  | nil => exact ⟨_, _, step_nil hp, step_nil (hport ▸ hp), State.agrees_idleEdge h⟩
  | cons c cs =>
    have hq : t.port = c :: cs := hport ▸ hp
    have hw := State.agrees_withPort h cs
    cases hr : c.rst
    · exact ⟨_, _, step_run hp hr, step_run hq hr, agrees_clockEdge hw (cycleEntry_agrees c _ _)⟩
    · exact ⟨_, _, step_reset hp hr, step_reset hq hr, State.agrees_resetEdge hw⟩

theorem observed_succ {s t : State} (n : Nat) (h : step s = .next t) :
    observed (n + 1) s = (if t.out.v then [t.out] else []) ++ observed n t := by
  rw [observed, h]

theorem observed_of_agrees (n : Nat) : ∀ s t : State, s.agrees t → observed n s = observed n t := by
  induction n with
  | zero => exact fun _ _ _ => rfl
  | succ n ih =>
    intro s t h
    obtain ⟨s', t', hs, ht, h'⟩ := step_agrees h
    rw [observed_succ n hs, observed_succ n ht, h'.1, ih s' t' h']

/-- Settles O18, by the step lemma `step_agrees` and its induction `observed_of_agrees`. -/
theorem unusedFieldsNeverObserved : Obligations.UnusedFieldsNeverObserved := by
  intro s t h
  refine ⟨fun s' t' hs ht => ?_, fun n => observed_of_agrees n s t h⟩
  obtain ⟨s₁, t₁, hs₁, ht₁, h₁⟩ := step_agrees h
  cases hs.symm.trans hs₁
  cases ht.symm.trans ht₁
  exact h₁

/-- The entry of a cycle that presents a request is `Exec` of its ports (30_encoding.md R66). -/
theorem cycleEntry_of_reqValid {c : PortIn} (n : Nat) (hv : c.reqValid = true) :
    cycleEntry c n = (execRequest c.reqOp c.reqA c.reqB).entry := by
  rw [cycleEntry, if_pos hv, decode_word, execRequest]

/-- LATENCY edges after a cycle with a request, its entry is in OUT: at once with LATENCY 1, and otherwise from PIPE[1], where
the first edge puts it, after as many edges as PIPE has stages. -/
theorem run_latency_shows_request {s : State} {c : PortIn} {cs rest : List PortIn} (hp : s.port = c :: (cs ++ rest))
    (hr : c.rst = false) (hv : c.reqValid = true) (hl : cs.length = s.pipe.length) (hcs : ∀ d ∈ cs, d.rst = false) :
    ∃ t, Host.Core.run core s.latency s = .next t ∧ t.out = (execRequest c.reqOp c.reqA c.reqB).entry ∧ t.port = rest := by
  have hstep := step_run hp hr
  rw [cycleEntry_of_reqValid _ hv] at hstep
  rw [State.latency, core_run_succ _ _ hstep]
  obtain hpipe | ⟨pre, x, hpipe⟩ := List.eq_nil_or_concat' s.pipe
  · rw [hpipe, List.length_nil] at hl ⊢
    obtain rfl := List.length_eq_zero_iff.mp hl
    refine ⟨_, rfl, ?_, rfl⟩
    show nextOut s.out (incoming _ s.pipe) = _
    rw [hpipe, incoming_nil, nextOut_of_valid (Response.entry_v _)]
  · rw [hpipe, List.length_append, List.length_singleton] at hl ⊢
    refine run_until_shown pre.length _ cs rest [] pre _ rfl (.inl hl) hcs (Response.entry_v _) ?_ rfl
    show shift _ s.pipe = _
    rw [hpipe, shift_concat, List.nil_append]

/-- Settles O12: the ports show OUT, where `run_latency_shows_request` finds the entry. -/
theorem responseAfterLatency : Obligations.ResponseAfterLatency := by
  intro s c cs rest hp hr hv hl hcs
  obtain ⟨t, hrun, hout, hport⟩ := run_latency_shows_request hp hr hv hl hcs
  exact ⟨t, hrun, congrArg Slot.v hout, congrArg Slot.data hout, congrArg Slot.status hout, hport⟩

/-- One edge with `rst` = 0 loses no response, keeps their order and adds the one its cycle is due. -/
theorem step_run_responses {s : State} {c : PortIn} {cs : List PortIn} (hp : s.port = c :: cs) (hr : c.rst = false) :
    ∃ t, step s = .next t ∧ t.port = cs ∧
      (if t.out.v then [t.out] else []) ++ t.pending = s.pending ++ due [c] := by
  refine ⟨_, step_run hp hr, rfl, ?_⟩
  rw [← cycleEntry_due c s.bubbles]
  exact pending_clockEdge (s.withPort cs) _

/-- Settles O13, by induction on the cycles with `step_run_responses` at each edge. -/
theorem responsesLeaveInRequestOrder : Obligations.ResponsesLeaveInRequestOrder := by
  intro s cs rest
  induction cs generalizing s with
  | nil => exact fun _ _ => ⟨s, rfl, (List.append_nil _).symm⟩
  | cons c cs ih =>
    intro hp hcs
    obtain ⟨hr, hcs'⟩ := List.forall_mem_cons.mp hcs
    obtain ⟨s', hstep, hport, hedge⟩ := step_run_responses hp hr
    obtain ⟨t, hrun, ht⟩ := ih s' hport hcs'
    refine ⟨t, (core_run_succ _ _ hstep).trans hrun, ?_⟩
    rw [List.length_cons, observed_succ _ hstep, List.append_assoc, ht, ← List.append_assoc, hedge, List.append_assoc,
      ← due_cons]

end Sys2Proof.Machine
end

section
/-! PROOFS. PackedFloat48 values (10_state.md R28 to R30): packed results are canonical, and the value of a pattern. -/

namespace Sys2Proof.Machine

/-- An OK response carries a canonical pattern, zero-extended (10_state.md R29). -/
def Response.packsCanonical (r : Response) : Prop :=
  r.status = .ok → ∃ p : Packed, r.data = p.setWidth 64 ∧ isCanonical p = true

theorem ok_packsCanonical {p : Packed} (h : isCanonical p = true) : (ok p).packsCanonical := fun _ => ⟨p, rfl, h⟩

theorem raise_packsCanonical {e : Status} (h : e ≠ .ok) : (raise e).packsCanonical := fun h' => absurd h' h

theorem isCanonical_zero : isCanonical 0 = true := rfl

/-- Range validation leaves exponent fields from 1 to 255 only (40_encode.md R89). -/
theorem packInBand_packsCanonical (s : BitVec 1) (pe : Int) (m : BitVec 39) : (packInBand s pe m).packsCanonical := by
  rw [packInBand_eq]
  split_ifs with h
  · refine ok_packsCanonical ((isCanonical_iff _).mpr (.inr ?_))
    rw [packedExp_pack_ofInt s m (by omega) h.2]
    omega
  · exact raise_packsCanonical (by decide)

theorem enc32_packsCanonical (f : Binary32) : (enc32 f).packsCanonical := by
  unfold enc32
  split_ifs
  · exact ok_packsCanonical isCanonical_zero
  · exact raise_packsCanonical (by decide)
  · exact packInBand_packsCanonical _ _ _

theorem enc64_packsCanonical (d : Binary64) : (enc64 d).packsCanonical := by
  unfold enc64
  split_ifs
  · exact ok_packsCanonical isCanonical_zero
  · exact raise_packsCanonical (by decide)
  · exact packInBand_packsCanonical _ _ _

/-- NEG keeps the exponent field (43_arith.md R141). -/
theorem packedExp_negated (p : Packed) : packedExp (negated p) = packedExp p := by
  unfold negated
  split_ifs with h
  · rw [h]
  · rw [packedExp, BitVec.extractLsb'_xor]
    exact BitVec.xor_zero

/-- NEG of a canonical pattern is canonical. -/
theorem isCanonical_negated {p : Packed} (h : isCanonical p = true) : isCanonical (negated p) = true := by
  rw [isCanonical_iff] at h ⊢
  rw [packedExp_negated]
  exact h.imp_left fun h0 => by rw [h0]; rfl

/-- Settles O23: ADD, SUB, MUL and DIV end in ENC64, so every case is one of ENC32, ENC64, POS and NEG. -/
theorem packedResultsCanonical : Obligations.PackedResultsCanonical := by
  intro i hi
  have hpack : (response i).packsCanonical := by
    cases i with
    | enc32 f => exact enc32_packsCanonical f
    | enc64 d => exact enc64_packsCanonical d
    | pos p => exact ok_packsCanonical hi
    | neg p => exact ok_packsCanonical (isCanonical_negated hi)
    | add a b => exact enc64_packsCanonical _
    | sub a b => exact enc64_packsCanonical _
    | mul a b => exact enc64_packsCanonical _
    | div a b => exact enc64_packsCanonical _
    | dec32 | dec64 | classify | cmp | cmplt | cmpgt | reservedE | reservedF => exact hi.elim
  exact ⟨(response i).entry, exec_eq_accept i, fun h => hpack ((Status.code_eq_zero _).mp h)⟩

/-- `val(p)` as a sign and a magnitude. -/
theorem val_eq_sign_mul_magnitude (p : Packed) :
    val p = (-1) ^ (packedSign p).toNat * ((packedMagnitude p : ℚ) / 2 ^ 168) := by
  rw [val, packedScaled]
  rcases bit_cases (packedSign p) with h | h <;> rw [h] <;> simp [neg_div]

/-- `|val(p)|` of a pattern that is not zero: the significand with its hidden 1, and bias 129 (10_state.md R30). -/
theorem packedMagnitude_div_eq {p : Packed} (h : p ≠ 0) :
    (packedMagnitude p : ℚ) / 2 ^ 168 =
      (1 + ((packedMant p).toNat : ℚ) / 2 ^ 39) * 2 ^ (((packedExp p).toNat : ℤ) - 129) := by
  rw [packedMagnitude, if_neg h, zpow_sub₀ two_ne_zero, zpow_natCast]
  push_cast
  rw [show (2 : ℚ) ^ 168 = 2 ^ 39 * 2 ^ (129 : ℤ) by norm_num]
  field_simp
  ring

/-- Settles O48: sign, mantissa and exponent field as arithmetic on the pattern's number. -/
theorem representedValue : Obligations.RepresentedValue := by
  intro p
  split_ifs with h
  · rw [h, val_eq_sign_mul_magnitude, (packedMagnitude_eq_zero 0).mpr rfl, Nat.cast_zero, zero_div, mul_zero]
  · rw [val_eq_sign_mul_magnitude, packedMagnitude_div_eq h, packedSign_toNat, packedMant_toNat, packedExp_toNat,
      ← mul_assoc]

end Sys2Proof.Machine
end

section
/-! PROOFS. A stored value (20_memory.md R41) and the one effect of an instruction (R46, R47). -/

namespace Sys2Proof.Machine

/-- Byte `k` of the stored form is bits `8k+7` to `8k` of the pattern. -/
theorem serialize48_getElem_toNat (p : Packed) (k : Nat) (hk : k < 6) :
    ((serialize48 p)[k]).toNat = p.toNat / 256 ^ k % 256 := by
  interval_cases k <;> exact toNat_extract p _ 8

/-- The number of a stored value: its bytes are digits in base 256, the least significant first. -/
theorem deserialize48_toNat (b : Vector Byte 6) :
    (deserialize48 b).toNat = b[0].toNat + 256 * (b[1].toNat + 256 * (b[2].toNat + 256 * (b[3].toNat +
      256 * (b[4].toNat + 256 * b[5].toNat)))) := by
  simp only [deserialize48, toNat_append_add]
  ring

theorem deserialize48_serialize48 (p : Packed) : deserialize48 (serialize48 p) = p := by
  apply BitVec.eq_of_toNat_eq
  simp only [deserialize48_toNat, serialize48_getElem_toNat]
  have := p.isLt
  omega

theorem serialize48_deserialize48 (b : Vector Byte 6) : serialize48 (deserialize48 b) = b := by
  ext1 k hk
  apply BitVec.eq_of_toNat_eq
  rw [serialize48_getElem_toNat _ k hk, deserialize48_toNat]
  have h0 := b[0].isLt
  have h1 := b[1].isLt
  have h2 := b[2].isLt
  have h3 := b[3].isLt
  have h4 := b[4].isLt
  have h5 := b[5].isLt
  interval_cases k <;> omega

/-- Settles O51: both inverses compare digits in base 256. -/
theorem serializeIsLittleEndian : Obligations.SerializeIsLittleEndian :=
  ⟨fun p k => serialize48_getElem_toNat p k k.isLt, deserialize48_serialize48, serialize48_deserialize48⟩

/-- The codes of the statuses are 0 to 4 (60_exceptions.md R170). -/
theorem Status.code_toNat_le (s : Status) : s.code.toNat ≤ 4 := by
  cases s <;> decide

/-- Data 0 beside every status but OK makes a response legal. -/
theorem Response.entry_legal {r : Response} (h : r.status ≠ .ok → r.data = 0) : r.entry.legal :=
  ⟨r.status.code_toNat_le, fun hs => h fun hok => hs ((Status.code_eq_zero _).mpr hok)⟩

theorem ok_entry_legal {n : Nat} (x : BitVec n) : (ok x).entry.legal := Response.entry_legal fun h => absurd rfl h

theorem raise_entry_legal (e : Status) : (raise e).entry.legal := Response.entry_legal fun _ => rfl

theorem packInBand_entry_legal (s : BitVec 1) (pe : Int) (m : BitVec 39) : (packInBand s pe m).entry.legal := by
  unfold packInBand
  split_ifs
  · exact raise_entry_legal _
  · exact ok_entry_legal _

theorem enc32_entry_legal (f : Binary32) : (enc32 f).entry.legal := by
  unfold enc32
  split_ifs
  · exact ok_entry_legal _
  · exact raise_entry_legal _
  · exact packInBand_entry_legal _ _ _

theorem enc64_entry_legal (d : Binary64) : (enc64 d).entry.legal := by
  unfold enc64
  split_ifs
  · exact ok_entry_legal _
  · exact raise_entry_legal _
  · exact packInBand_entry_legal _ _ _

theorem dec32_entry_legal (p : Packed) : (dec32 p).entry.legal := by
  unfold dec32
  split_ifs
  · exact ok_entry_legal _
  · exact raise_entry_legal _
  · exact ok_entry_legal _

/-- Every response is legal: an operation ends in `ok` or in `raise` (60_exceptions.md R170, R177). -/
theorem response_entry_legal (i : Instr) : (response i).entry.legal := by
  cases i with
  | enc32 f => exact enc32_entry_legal f
  | dec32 p => exact dec32_entry_legal p
  | enc64 | add | sub | mul | div => exact enc64_entry_legal _
  | dec64 | classify | pos | neg | cmp | cmplt | cmpgt => exact ok_entry_legal _
  | reservedE | reservedF => exact raise_entry_legal _

/-- Settles O10: the entry is that of the instruction's response, in every state. -/
theorem everyInstructionEntersOneResponse : Obligations.EveryInstructionEntersOneResponse := fun i =>
  ⟨(response i).entry, Response.entry_v _, response_entry_legal i, exec_eq_accept i⟩

end Sys2Proof.Machine
end

section
/-! PROOFS. Several host agents (20_memory.md R47, R49): what each event of the host relation does, the ownership of requests
in flight that every event keeps, and the task an agent keeps from its read to its store. -/

namespace Sys2Proof.Machine

/-- A host system after an edge with `rst` = 0 at which the ports carry `c`, before the response port is sampled. -/
def HostSystem.afterEdge (h : HostSystem) (c : PortIn) : HostSystem :=
  { h with host := { h.host with block := blockAfter h.host.block c } }

/-- Agent `k` presents its request `r`: it waits, behind those in flight. -/
def HostSystem.present (h : HostSystem) (k : Nat) (ls : List HostLine) (r : Request) (dest : Option VarName) : HostSystem :=
  { h with agents := h.agents.set k ⟨ls, .waiting r dest⟩, owners := h.owners ++ [k] }

/-! What each event does, said once. -/

/-- A read places a pattern at once or leaves a request to present. -/
theorem HostSystem.fetch_cases {h h' : HostSystem} {k : Nat} (hf : h.fetch k = some h') :
    ∃ l ls, h.agents[k]? = some ⟨l :: ls, .idle⟩ ∧
      ((∃ x v, h.host.action l = some (.assign x v) ∧
          h' = { h with host := h.host.set x v, agents := h.agents.set k ⟨ls, .idle⟩ }) ∨
        ∃ r dest, h.host.action l = some (.request r dest) ∧
          h' = { h with agents := h.agents.set k ⟨ls, .ready r dest⟩ }) := by
  unfold HostSystem.fetch at hf
  split at hf
  next l ls hk =>
    obtain ⟨act, hact, rfl⟩ := Option.map_eq_some_iff.mp hf
    refine ⟨l, ls, hk, ?_⟩
    cases act with
    | assign x v => exact .inl ⟨x, v, hact, rfl⟩
    | request r dest => exact .inr ⟨r, dest, hact, rfl⟩
  next => cases hf

/-- An edge with `rst` = 0 presents nothing, or the request of an agent that has one ready; then the port is sampled. -/
theorem HostSystem.clock_cases {h h' : HostSystem} {chosen : Option Nat} (hc : h.clock chosen = some h') :
    (chosen = none ∧ h' = (h.afterEdge PortIn.idle).receive) ∨
      ∃ k ls r dest, chosen = some k ∧ h.agents[k]? = some ⟨ls, .ready r dest⟩ ∧
        h' = ((h.present k ls r dest).afterEdge r.cycle).receive := by
  cases chosen with
  | none =>
    rw [HostSystem.clock, HostSystem.edge_run h rfl] at hc
    exact .inl ⟨rfl, (Option.some.inj hc).symm⟩
  | some k =>
    simp only [HostSystem.clock] at hc
    split at hc
    next ls r dest hk =>
      rw [HostSystem.edge_run _ r.cycle_rst] at hc
      exact .inr ⟨k, ls, r, dest, rfl, hk, (Option.some.inj hc).symm⟩
    next => cases hc

/-- A store takes the response the agent was answered with. -/
theorem HostSystem.store_cases {h h' : HostSystem} {k : Nat} (hs : h.store k = some h') :
    ∃ ls r dest data status, h.agents[k]? = some ⟨ls, .answered r dest data status⟩ ∧
      h' = { h with host := h.host.store dest data status, agents := h.agents.set k ⟨ls, .idle⟩ } := by
  unfold HostSystem.store at hs
  split at hs
  next ls r dest data status hk => exact ⟨ls, r, dest, data, status, hk, (Option.some.inj hs).symm⟩
  next => cases hs

/-- A reset edge clears the block, and every request in flight is discarded. -/
theorem HostSystem.resetBlock_eq (h : HostSystem) :
    h.resetBlock = some
      { host := { h.host with block := (h.host.block.withPort []).resetEdge }
        agents := h.agents.map Agent.discard
        owners := [] } := by
  rw [HostSystem.resetBlock, HostSystem.edge, step_reset (State.withPort_port _ _) rfl]
  rfl

/-! Ownership (20_memory.md R47). -/

/-- An edge with `rst` = 0 and the sampling after it keep the ownership, when the cycle's response is owned behind those in
flight. -/
theorem HostSystem.owned_receive_afterEdge {h : HostSystem} {c : PortIn} (ho : h.owns (h.host.block.pending ++ due [c])) :
    (h.afterEdge c).receive.owned := by
  have hedge : (h.afterEdge c).owns (h.host.block.pending ++ due [c]) := ⟨ho.inOrder, ho.once, ho.waiting, ho.answered⟩
  rw [← pending_blockAfter] at hedge
  rw [HostSystem.owned, HostSystem.receive_block]
  exact HostSystem.owns_receive hedge

theorem HostSystem.owned_fetch {h h' : HostSystem} {k : Nat} (ho : h.owned) (hf : h.fetch k = some h') : h'.owned := by
  obtain ⟨l, ls, hk, ⟨x, v, -, rfl⟩ | ⟨r, dest, -, rfl⟩⟩ := HostSystem.fetch_cases hf
  · exact HostSystem.owns_set ho hk (by simp) (by simp) (by simp)
  · exact HostSystem.owns_set ho hk (by simp) (by simp) (by simp)

theorem HostSystem.owned_clock {h h' : HostSystem} {chosen : Option Nat} (ho : h.owned) (hc : h.clock chosen = some h') :
    h'.owned := by
  obtain ⟨-, rfl⟩ | ⟨k, ls, r, dest, -, hk, rfl⟩ := HostSystem.clock_cases hc
  · refine HostSystem.owned_receive_afterEdge ?_
    rwa [due_idle, List.append_nil]
  · refine HostSystem.owned_receive_afterEdge ?_
    rw [due_request]
    exact HostSystem.owns_present ho hk

theorem HostSystem.owned_store {h h' : HostSystem} {k : Nat} (ho : h.owned) (hs : h.store k = some h') : h'.owned := by
  obtain ⟨ls, r, dest, data, status, hk, rfl⟩ := HostSystem.store_cases hs
  rw [HostSystem.owned, HostState.store_block]
  exact HostSystem.owns_set ho hk (by simp) (by simp) (by simp)

@[simp] theorem State.pending_resetEdge (s : State) : s.resetEdge.pending = [] := by
  simp [State.pending]

/-- A reset takes an agent that waits to its next line and leaves every other agent. -/
theorem Agent.discard_cases (a : Agent) :
    (a.discard = a ∧ ∀ r dest, a.phase ≠ .waiting r dest) ∨ a.discard = ⟨a.lines, .idle⟩ := by
  obtain ⟨ls, p⟩ := a
  cases p with
  | waiting r dest => exact .inr rfl
  | idle | ready | answered => exact .inl ⟨rfl, fun _ _ h => nomatch h⟩

theorem Agent.discard_ne_waiting (a : Agent) (ls : List HostLine) (r : Request) (dest : Option VarName) :
    a.discard ≠ ⟨ls, .waiting r dest⟩ := by
  intro h
  obtain ⟨ha, hp⟩ | ha := a.discard_cases
  · exact hp r dest (congrArg Agent.phase (ha.symm.trans h))
  · exact nomatch ha.symm.trans h

theorem Agent.eq_of_discard_eq_answered {a : Agent} {ls : List HostLine} {r : Request} {dest : Option VarName}
    {data : Data} {status : StatusCode} (h : a.discard = ⟨ls, .answered r dest data status⟩) :
    a = ⟨ls, .answered r dest data status⟩ := by
  obtain ⟨ha, -⟩ | ha := a.discard_cases
  · exact ha.symm.trans h
  · exact nomatch ha.symm.trans h

theorem HostSystem.owned_resetBlock {h h' : HostSystem} (ho : h.owned) (hr : h.resetBlock = some h') : h'.owned := by
  obtain rfl := Option.some.inj (h.resetBlock_eq.symm.trans hr)
  rw [HostSystem.owned, State.pending_resetEdge]
  refine ⟨.nil, .nil, fun k ls r dest hk => ?_, fun k ls r dest data status hk => ?_⟩
  · rw [List.getElem?_map] at hk
    obtain ⟨a, -, ha⟩ := Option.map_eq_some_iff.mp hk
    exact absurd ha (a.discard_ne_waiting ls r dest)
  · rw [List.getElem?_map] at hk
    obtain ⟨a, hka, ha⟩ := Option.map_eq_some_iff.mp hk
    exact ho.answered k ls r dest data status (Agent.eq_of_discard_eq_answered ha ▸ hka)

/-- Settles O53, event by event. -/
theorem everyAgentReceivesItsOwnResponse : Obligations.EveryAgentReceivesItsOwnResponse := by
  intro h h' e ho he
  cases e with
  | fetch k => exact HostSystem.owned_fetch ho he
  | clock chosen => exact HostSystem.owned_clock ho he
  | store k => exact HostSystem.owned_store ho he
  | reset => exact HostSystem.owned_resetBlock ho he

theorem HostSystem.run_cons {h h' : HostSystem} {e : HostEvent} {es : List HostEvent} (hr : h.run (e :: es) = some h') :
    ∃ h₁, h.event e = some h₁ ∧ h₁.run es = some h' :=
  Option.bind_eq_some_iff.mp hr

theorem HostSystem.owned_run {h h' : HostSystem} {es : List HostEvent} (ho : h.owned) (hr : h.run es = some h') :
    h'.owned := by
  induction es generalizing h with
  | nil => exact Option.some.inj hr ▸ ho
  | cons e es ih =>
    obtain ⟨h₁, he, hr₁⟩ := HostSystem.run_cons hr
    exact ih (everyAgentReceivesItsOwnResponse h h₁ e ho he) hr₁

/-! The task of an agent between its read and its store (20_memory.md R49). -/

/-- The request a phase is about, with its receiver, whether presented and answered yet or not. -/
def Phase.task : Phase → Option (Request × Option VarName)
  | .idle => none
  | .ready r dest => some (r, dest)
  | .waiting r dest => some (r, dest)
  | .answered r dest _ _ => some (r, dest)

/-- The lines agent `k` has still to issue and the request it is about. -/
def HostSystem.task (h : HostSystem) (k : Nat) : Option (List HostLine × Option (Request × Option VarName)) :=
  h.agents[k]?.map fun a => (a.lines, a.phase.task)

theorem HostSystem.task_of_getElem? {h : HostSystem} {k : Nat} {a : Agent} (hk : h.agents[k]? = some a) :
    h.task k = some (a.lines, a.phase.task) := by
  rw [HostSystem.task, hk]
  rfl

/-- A change of agent `j` to a phase about the same request, or of another agent, leaves the task of agent `k`. -/
theorem HostSystem.task_set {h : HostSystem} {j k : Nat} {a : Agent} {host : HostState} {owners : List Nat}
    (ha : j = k → h.task k = some (a.lines, a.phase.task)) :
    ({ host := host, agents := h.agents.set j a, owners := owners } : HostSystem).task k = h.task k := by
  by_cases hjk : j = k
  · subst hjk
    have htask := ha rfl
    obtain ⟨a', hj, -⟩ := Option.map_eq_some_iff.mp htask
    rw [htask]
    exact HostSystem.task_of_getElem? (List.getElem?_set_self (List.getElem?_eq_some_iff.mp hj).1)
  · simp only [HostSystem.task, List.getElem?_set_ne hjk]

@[simp] theorem Agent.answer_lines (a : Agent) (d : Data) (st : StatusCode) : (a.answer d st).lines = a.lines := by
  obtain h | ⟨r, dest, -, h⟩ := a.answer_cases d st <;> rw [h]

/-- An answer is to the request the agent waits about. -/
@[simp] theorem Agent.answer_task (a : Agent) (d : Data) (st : StatusCode) : (a.answer d st).phase.task = a.phase.task := by
  obtain h | ⟨r, dest, hp, h⟩ := a.answer_cases d st
  · rw [h]
  · rw [h, hp]
    rfl

@[simp] theorem HostSystem.receive_task (h : HostSystem) (k : Nat) : h.receive.task k = h.task k := by
  simp only [HostSystem.receive]
  split
  · split
    · rfl
    next j ks _ =>
      simp only [HostSystem.task, List.getElem?_modify, Option.map_eq_map, Option.map_map]
      congr 1
      funext a
      by_cases hjk : j = k <;> simp [hjk]
  · rfl

@[simp] theorem HostSystem.afterEdge_task (h : HostSystem) (c : PortIn) (k : Nat) : (h.afterEdge c).task k = h.task k := rfl

theorem HostSystem.clock_task {h h' : HostSystem} {chosen : Option Nat} (hc : h.clock chosen = some h') (k : Nat) :
    h'.task k = h.task k := by
  obtain ⟨-, rfl⟩ | ⟨j, ls, r, dest, -, hj, rfl⟩ := HostSystem.clock_cases hc
  · rw [HostSystem.receive_task, HostSystem.afterEdge_task]
  · rw [HostSystem.receive_task, HostSystem.afterEdge_task]
    refine HostSystem.task_set fun hjk => ?_
    rw [← hjk, HostSystem.task_of_getElem? hj]
    rfl

/-- An agent that is about a request reads no other line, and the reads of other agents leave it. -/
theorem HostSystem.fetch_task {h h' : HostSystem} {j k : Nat} {ls : List HostLine} {t : Request × Option VarName}
    (ht : h.task k = some (ls, some t)) (hf : h.fetch j = some h') : h'.task k = h.task k := by
  obtain ⟨l, ls', hj, hcase⟩ := HostSystem.fetch_cases hf
  have hjk : j ≠ k := by
    rintro rfl
    rw [HostSystem.task_of_getElem? hj] at ht
    cases ht
  obtain ⟨x, v, -, rfl⟩ | ⟨r, dest, -, rfl⟩ := hcase
  · exact HostSystem.task_set fun h => absurd h hjk
  · exact HostSystem.task_set fun h => absurd h hjk

theorem HostSystem.store_task {h h' : HostSystem} {j k : Nat} (hjk : j ≠ k) (hs : h.store j = some h') :
    h'.task k = h.task k := by
  obtain ⟨ls, r, dest, data, status, -, rfl⟩ := HostSystem.store_cases hs
  exact HostSystem.task_set fun h => absurd h hjk

/-- From its read until its own store, a reset aside, an agent is about one request. -/
theorem HostSystem.event_task {h h' : HostSystem} {k : Nat} {e : HostEvent} {ls : List HostLine}
    {t : Request × Option VarName} (ht : h.task k = some (ls, some t)) (hstore : e ≠ .store k) (hreset : e ≠ .reset)
    (he : h.event e = some h') : h'.task k = h.task k := by
  cases e with
  | fetch j => exact HostSystem.fetch_task ht he
  | clock chosen => exact HostSystem.clock_task he k
  | store j => exact HostSystem.store_task (fun hjk => hstore (hjk ▸ rfl)) he
  | reset => exact absurd rfl hreset

theorem HostSystem.run_task {h h' : HostSystem} {k : Nat} {es : List HostEvent} {ls : List HostLine}
    {t : Request × Option VarName} (ht : h.task k = some (ls, some t)) (hstore : .store k ∉ es) (hreset : .reset ∉ es)
    (hr : h.run es = some h') : h'.task k = some (ls, some t) := by
  induction es generalizing h with
  | nil => exact Option.some.inj hr ▸ ht
  | cons e es ih =>
    obtain ⟨hstore_e, hstore_es⟩ := not_or.mp (List.mem_cons.not.mp hstore)
    obtain ⟨hreset_e, hreset_es⟩ := not_or.mp (List.mem_cons.not.mp hreset)
    obtain ⟨h₁, he, hr₁⟩ := HostSystem.run_cons hr
    exact ih ((HostSystem.event_task ht (Ne.symm hstore_e) (Ne.symm hreset_e) he).trans ht) hstore_es hreset_es hr₁

/-- The read of a line that comes to a request makes that request the agent's task. -/
theorem HostSystem.task_of_fetch_request {h h' : HostSystem} {k : Nat} {l : HostLine} {ls : List HostLine} {r : Request}
    {dest : Option VarName} (hk : h.agents[k]? = some ⟨l :: ls, .idle⟩) (hact : h.host.action l = some (.request r dest))
    (hf : h.fetch k = some h') : h'.task k = some (ls, some (r, dest)) := by
  obtain ⟨l', ls', hk', ⟨x, v, hact', -⟩ | ⟨r', dest', hact', rfl⟩⟩ := HostSystem.fetch_cases hf
  · cases hk.symm.trans hk'
    cases hact.symm.trans hact'
  · cases hk.symm.trans hk'
    cases hact.symm.trans hact'
    exact HostSystem.task_of_getElem? (a := ⟨ls, .ready r dest⟩)
      (List.getElem?_set_self (List.getElem?_eq_some_iff.mp hk).1)

/-- An owned agent stores the response due to the request it is about. -/
theorem HostSystem.store_of_task {h h' : HostSystem} {k : Nat} {ls : List HostLine} {r : Request} {dest : Option VarName}
    (ho : h.owned) (ht : h.task k = some (ls, some (r, dest))) (hs : h.store k = some h') :
    h' = { h with host := h.host.store dest r.response.data r.response.status, agents := h.agents.set k ⟨ls, .idle⟩ } ∧
      h'.agents[k]? = some ⟨ls, .idle⟩ := by
  obtain ⟨ls', r', dest', data, status, hk, rfl⟩ := HostSystem.store_cases hs
  rw [HostSystem.task_of_getElem? hk] at ht
  cases ht
  obtain ⟨rfl, rfl⟩ := ho.answered k _ _ _ _ _ hk
  exact ⟨rfl, List.getElem?_set_self (List.getElem?_eq_some_iff.mp hk).1⟩

/-- Settles O54: the read fixes the agent's task, which stays until the store, and ownership makes the response stored that
of this task. -/
theorem compoundAssignmentUsesTheValueRead : Obligations.CompoundAssignmentUsesTheValueRead := by
  intro h h₁ h₂ k ls x m v b es ho hm hx hk hstore hreset hrun hlast
  obtain ⟨h₀, hread, hrest⟩ := HostSystem.run_cons hrun
  have htask : h₁.task k = some (ls, some (⟨m.opcode, v, b⟩, some x)) :=
    HostSystem.run_task (HostSystem.task_of_fetch_request hk (HostState.action_compound b hm hx) hread) hstore hreset hrest
  obtain ⟨rfl, hidle⟩ := HostSystem.store_of_task (HostSystem.owned_run ho hrun) htask hlast
  refine ⟨?_, fun y hy => ?_, hidle⟩
  · simp only [HostState.store_get, true_and]
    exact if_congr (Status.code_eq_zero _) rfl rfl
  · exact (HostState.store_get _ _ _ _ _).trans (if_neg fun hyx => hy hyx.1)

end Sys2Proof.Machine
end

section
/-! PROOFS. The encoding (30_encoding.md R60 to R64, R66): the decoder and the encoder are inverse but for the bits an
operation ignores, which therefore have no effect; every request is answered, and only a reserved one as illegal. -/

namespace Sys2Proof.Machine

/-- The decoder reads the three ports back from the word (30_encoding.md R60). -/
@[simp] theorem decode_requestWord (op : OpSelect) (a : Data) (b : Packed) :
    decode (requestWord op a b) = decodePorts op a b := by
  rw [decode, reqOp_requestWord, reqA_requestWord, reqB_requestWord]

/-! An operand narrower than `req_a` is its low bits (30_encoding.md R62). -/

theorem operandF32_toNat (a : Data) : (operandF32 a).toNat = a.toNat % 2 ^ 32 := by
  rw [operandF32, toNat_extract, Nat.pow_zero, Nat.div_one]

theorem operandP_toNat (a : Data) : (operandP a).toNat = a.toNat % 2 ^ 48 := by
  rw [operandP, toNat_extract, Nat.pow_zero, Nat.div_one]

theorem operandF32_eq_iff {a a' : Data} : operandF32 a = operandF32 a' ↔ a.toNat % 2 ^ 32 = a'.toNat % 2 ^ 32 := by
  rw [← BitVec.toNat_inj, operandF32_toNat, operandF32_toNat]

theorem operandP_eq_iff {a a' : Data} : operandP a = operandP a' ↔ a.toNat % 2 ^ 48 = a'.toNat % 2 ^ 48 := by
  rw [← BitVec.toNat_inj, operandP_toNat, operandP_toNat]

@[simp] theorem operandF32_setWidth (f : Binary32) : operandF32 (f.setWidth 64) = f := by
  apply BitVec.eq_of_toNat_eq
  rw [operandF32_toNat, BitVec.toNat_setWidth]
  have := f.isLt
  omega

@[simp] theorem operandP_setWidth (p : Packed) : operandP (p.setWidth 64) = p := by
  apply BitVec.eq_of_toNat_eq
  rw [operandP_toNat, BitVec.toNat_setWidth]
  have := p.isLt
  omega

theorem setWidth_operandF32 (a : Data) : (operandF32 a).setWidth 64 = a &&& 0xFFFFFFFF := by
  apply BitVec.eq_of_toNat_eq
  rw [BitVec.toNat_setWidth, operandF32_toNat, BitVec.toNat_and, show (0xFFFFFFFF : Data).toNat = 2 ^ 32 - 1 from rfl,
    Nat.and_two_pow_sub_one_eq_mod]
  omega

theorem setWidth_operandP (a : Data) : (operandP a).setWidth 64 = a &&& 0xFFFFFFFFFFFF := by
  apply BitVec.eq_of_toNat_eq
  rw [BitVec.toNat_setWidth, operandP_toNat, BitVec.toNat_and, show (0xFFFFFFFFFFFF : Data).toNat = 2 ^ 48 - 1 from rfl,
    Nat.and_two_pow_sub_one_eq_mod]
  omega

/-- The operation map reads an instruction back from its ports. -/
theorem decodePorts_ports (i : Instr) : decodePorts i.opcode i.portA i.portB = i := by
  cases i with
  | enc32 f => exact congrArg Instr.enc32 (operandF32_setWidth f)
  | enc64 | reservedE | reservedF => rfl
  | dec32 | dec64 | classify | pos | neg | cmp | cmplt | cmpgt | add | sub | mul | div =>
    simp [Instr.opcode, Instr.portA, Instr.portB, decodePorts, operandQ]

/-- Settles O1: the word gives the ports back, and the ports the instruction. -/
theorem decodeOfEncode : Obligations.DecodeOfEncode := by
  intro i
  rw [encode, decode_requestWord, decodePorts_ports]

/-! The ports of a decoded request: `req_op` as it was, and of `req_a` and `req_b` the bits the operation reads
(30_encoding.md R61, R62). -/

@[simp] theorem opcode_decodePorts (op : OpSelect) (a : Data) (b : Packed) : (decodePorts op a b).opcode = op := by
  obtain ⟨k⟩ := op
  fin_cases k <;> rfl

theorem portA_decodePorts (op : OpSelect) (a : Data) (b : Packed) :
    (decodePorts op a b).portA =
      if op = 0x0 then a &&& 0xFFFFFFFF
      else if op = 0x1 then a
      else if op.toNat ≤ 0xD then a &&& 0xFFFFFFFFFFFF
      else 0 := by
  rw [← setWidth_operandF32, ← setWidth_operandP]
  obtain ⟨k⟩ := op
  fin_cases k <;> rfl

theorem portB_decodePorts (op : OpSelect) (a : Data) (b : Packed) :
    (decodePorts op a b).portB = if 0x7 ≤ op.toNat ∧ op.toNat ≤ 0xD then b else 0 := by
  obtain ⟨k⟩ := op
  fin_cases k <;> rfl

/-- Settles O2, port by port. -/
theorem encodeOfDecodeClearsIgnoredBits : Obligations.EncodeOfDecodeClearsIgnoredBits := by
  intro op a b
  rw [decode_requestWord, encode, opcode_decodePorts, portA_decodePorts, portB_decodePorts]

/-- Two instructions with the same request word are the same. -/
theorem encode_injective : Function.Injective encode := Function.LeftInverse.injective decodeOfEncode

/-- Settles O3: with the ignored bits cleared the two words are one, and a word decodes to one instruction. -/
theorem ignoredBitsHaveNoEffect : Obligations.IgnoredBitsHaveNoEffect := by
  intro op a a' b b' s h32 h64 h48 hb
  suffices h : encode (decode (requestWord op a b)) = encode (decode (requestWord op a' b')) by
    rw [encode_injective h]
  rw [encodeOfDecodeClearsIgnoredBits, encodeOfDecodeClearsIgnoredBits, ← setWidth_operandF32, ← setWidth_operandF32,
    ← setWidth_operandP, ← setWidth_operandP]
  congr 1
  · split_ifs with h0 h1 hP
    · rw [operandF32_eq_iff.mpr (h32 h0)]
    · exact h64 h1
    · have h2 : 0x2 ≤ op.toNat := by bv_omega
      rw [operandP_eq_iff.mpr (h48 h2 hP)]
    · rfl
  · split_ifs with hB
    · exact hb hB.1 hB.2
    · rfl

/-- Settles O4, word by word. -/
theorem decodeOfWrittenWords : Obligations.DecodeOfWrittenWords := by
  unfold Obligations.DecodeOfWrittenWords
  decide

/-- Settles O11: no cycle left, a cycle with `rst` = 0 and a cycle with `rst` = 1 each have their edge. -/
theorem everyStepCompletes : Obligations.EveryStepCompletes := by
  intro s
  cases hp : s.port with
  | nil => exact ⟨_, step_nil hp⟩
  | cons c cs =>
    cases hr : c.rst with
    | false => exact ⟨_, step_run hp hr⟩
    | true => exact ⟨_, step_reset hp hr⟩

/-! The statuses of the operations that can fail (60_exceptions.md R170 to R174). -/

theorem packInBand_status (s : BitVec 1) (pe : Int) (m : BitVec 39) :
    (packInBand s pe m).status = .ok ∨ (packInBand s pe m).status = .rangeOverflow := by
  rw [packInBand_eq]
  split_ifs
  · exact .inl rfl
  · exact .inr rfl

theorem enc32_status (f : Binary32) :
    (enc32 f).status = .ok ∨ (enc32 f).status = .rangeOverflow ∨ (enc32 f).status = .specialValueRejected := by
  unfold enc32
  split_ifs
  · exact .inl rfl
  · exact .inr (.inr rfl)
  · exact (packInBand_status _ _ _).imp_right .inl

theorem enc64_status (d : Binary64) :
    (enc64 d).status = .ok ∨ (enc64 d).status = .rangeOverflow ∨ (enc64 d).status = .specialValueRejected := by
  unfold enc64
  split_ifs
  · exact .inl rfl
  · exact .inr (.inr rfl)
  · exact (packInBand_status _ _ _).imp_right .inl

theorem dec32_status (p : Packed) : (dec32 p).status = .ok ∨ (dec32 p).status = .narrowingRangeOverflow := by
  unfold dec32
  split_ifs
  · exact .inl rfl
  · exact .inr rfl
  · exact .inl rfl

/-- No operation below 0xE is illegal, whatever its operands (30_encoding.md R64). -/
theorem response_status_ne_illegalOperation {i : Instr} (hi : i.opcode.toNat < 0xE) :
    (response i).status ≠ .illegalOperation := by
  cases i with
  | enc32 f => rcases enc32_status f with h | h | h <;> exact h.trans_ne (by decide)
  | dec32 p => rcases dec32_status p with h | h <;> exact h.trans_ne (by decide)
  | enc64 | add | sub | mul | div => rcases enc64_status _ with h | h | h <;> exact h.trans_ne (by decide)
  | dec64 | classify | pos | neg | cmp | cmplt | cmpgt => exact (ok_status _).trans_ne (by decide)
  | reservedE | reservedF => exact absurd hi (by decide)

/-- Status 4 is IllegalOperation, and no other status has code 4 (60_exceptions.md R170). -/
theorem Status.code_eq_four (s : Status) : s.code = 4 ↔ s = .illegalOperation := by
  cases s <;> decide

/-- Settles O47: the reserved operations raise; of another one the decoded instruction keeps the `req_op` below 0xE. -/
theorem reservedOperationsIllegal : Obligations.ReservedOperationsIllegal := by
  refine ⟨fun a b s => ⟨decode_requestWord _ a b, decode_requestWord _ a b, exec_eq_accept _ s, exec_eq_accept _ s⟩,
    fun op a b hop => ⟨(response (decodePorts op a b)).entry, fun h4 => ?_, fun s => ?_⟩⟩
  · rw [Response.entry_status, Status.code_eq_four] at h4
    exact response_status_ne_illegalOperation (by rwa [opcode_decodePorts]) h4
  · rw [decode_requestWord]
    exact exec_eq_accept _ s

end Sys2Proof.Machine
end

section
/-! PROOFS. fp48_encoder (40_encode.md): the results of ENC32 and ENC64, the real values they pack, and which magnitudes they
accept. -/

namespace Sys2Proof.Machine

/-! The branches of the two encodings that the codec's laws leave out (40_encode.md R82 to R84). -/

theorem enc32_flush {f : Binary32} (h : (f32Exp f).toNat = 0) : enc32 f = ok (0 : Packed) :=
  if_pos ((f32Exp_eq_zero f).mpr h)

theorem enc32_special {f : Binary32} (h : (f32Exp f).toNat = 255) : enc32 f = raise .specialValueRejected := by
  rw [enc32, if_neg (by rw [f32Exp_eq_zero]; omega), if_pos ((f32Exp_eq_ones f).mpr h)]

theorem enc32_out_of_band {f : Binary32} (h : (f32Exp f).toNat = 254) : enc32 f = raise .rangeOverflow := by
  rw [enc32, if_neg (by rw [f32Exp_eq_zero]; omega), if_neg (by rw [f32Exp_eq_ones]; omega), packInBand_eq,
    if_neg (by omega)]

theorem enc64_flush {d : Binary64} (h : (f64Exp d).toNat = 0) : enc64 d = ok (0 : Packed) :=
  if_pos ((f64Exp_eq_zero d).mpr h)

theorem enc64_special {d : Binary64} (h : (f64Exp d).toNat = 2047) : enc64 d = raise .specialValueRejected := by
  rw [enc64, if_neg (by rw [f64Exp_eq_zero]; omega), if_pos ((f64Exp_eq_ones d).mpr h)]

/-! What an accepted or a refused input puts into the pipeline. -/

theorem exec_of_response_ok {i : Instr} {p : Packed} (h : response i = ok p) (s : State) :
    exec i s = .next (s.clockEdge ⟨true, p.setWidth 64, 0⟩) := by
  rw [exec_eq_accept, State.accept, h, entry_ok]

theorem exec_of_response_rangeOverflow {i : Instr} (h : response i = raise .rangeOverflow) (s : State) :
    exec i s = .next (s.clockEdge ⟨true, 0, 1⟩) := by
  rw [exec_eq_accept, State.accept, h]
  rfl

/-! The packed patterns as numbers (40_encode.md R85). -/

/-- A pattern's number is the sum of its fields at their places (10_state.md R28). -/
theorem toNat_eq_fields (p : Packed) :
    p.toNat = (packedSign p).toNat * 2 ^ 47 + (packedMant p).toNat * 2 ^ 8 + (packedExp p).toNat := by
  rw [← pack_toNat, pack_fields]

theorem packed32_toNat {f : Binary32} (h : (f32Exp f).toNat ≤ 253) :
    (packed32 f).toNat = f.toNat / 2 ^ 31 * 2 ^ 47 + f.toNat % 2 ^ 23 * 2 ^ 24 + ((f32Exp f).toNat + 2) := by
  obtain ⟨hs, he, hm⟩ := packed32_fields f h
  rw [toNat_eq_fields, hs, he, hm, f32Sign_toNat, f32Mant_toNat]
  omega

theorem packed64_toNat {d : Binary64} (h1 : 895 ≤ (f64Exp d).toNat) (h2 : (f64Exp d).toNat ≤ 1149) :
    (packed64 d).toNat =
      d.toNat / 2 ^ 63 * 2 ^ 47 + d.toNat % 2 ^ 52 / 2 ^ 13 * 2 ^ 8 + ((f64Exp d).toNat - 894) := by
  obtain ⟨hs, he, hm⟩ := packed64_fields d h1 h2
  rw [toNat_eq_fields, hs, he, hm, f64Sign_toNat, f64Mant_toNat]

/-- Settles O19, along the branches of the encoding: flush, special value, the one exponent field out of range, accepted. -/
theorem enc32Result : Obligations.Enc32Result := by
  refine ⟨decode_requestWord 0x0, fun f s => ?_⟩
  have hlt := (f32Exp f).isLt
  rw [exec_eq_accept, State.accept, response, ← f32Exp_toNat]
  congr 2
  split_ifs with h0 h255 h254
  · rw [enc32_flush h0]
    rfl
  · rw [enc32_special h255]
    rfl
  · rw [enc32_out_of_band h254]
    rfl
  · rw [enc32_in_band f (by omega) (by omega), entry_ok, setWidth_eq_ofNat _ _ (packed32_toNat (by omega))]

/-- Settles O20, along the branches of the encoding: flush, special value, exponent field out of range, accepted. -/
theorem enc64Result : Obligations.Enc64Result := by
  refine ⟨decode_requestWord 0x1, fun d s => ?_⟩
  have hlt := (f64Exp d).isLt
  rw [exec_eq_accept, State.accept, response, ← f64Exp_toNat]
  congr 2
  split_ifs with h0 h2047 hband
  · rw [enc64_flush h0]
    rfl
  · rw [enc64_special h2047]
    rfl
  · rw [enc64_out_of_band d (by omega) (by omega) hband]
    rfl
  · rw [enc64_in_band d (by omega) (by omega), entry_ok, setWidth_eq_ofNat _ _ (packed64_toNat (by omega) (by omega))]

/-! Normal values as sign, significand and power of two (00_scope.md R15, 10_state.md R30). -/

/-- A normal magnitude with its hidden 1; the unit is 2^-(w+k), where `k + 1` is the bias. -/
theorem fieldMagnitude_div_eq (w k m : ℕ) {e : ℕ} (he : e ≠ 0) :
    (fieldMagnitude w e m : ℚ) / 2 ^ (w + k) = (1 + (m : ℚ) / 2 ^ w) * 2 ^ ((e : ℤ) - (k + 1)) := by
  obtain ⟨n, rfl⟩ := Nat.exists_eq_succ_of_ne_zero he
  rw [fieldMagnitude, if_neg he, show ((n.succ : ℕ) : ℤ) - (k + 1) = n - k by push_cast; ring, zpow_sub₀ two_ne_zero,
    zpow_natCast, zpow_natCast, Nat.succ_sub_one]
  push_cast
  field_simp
  ring

theorem f32val_of_normal {f : Binary32} (h : (f32Exp f).toNat ≠ 0) :
    f32val f = (-1) ^ (f32Sign f).toNat *
      ((1 + ((f32Mant f).toNat : ℚ) / 2 ^ 23) * 2 ^ (((f32Exp f).toNat : ℤ) - 127)) := by
  rw [show (((f32Exp f).toNat : ℤ) - 127) = (f32Exp f).toNat - ((126 : ℕ) + 1) by push_cast; ring,
    ← fieldMagnitude_div_eq 23 126 _ h, f32val, f32Scaled, f32Magnitude]
  rcases bit_cases (f32Sign f) with hs | hs <;> rw [hs] <;> simp [neg_div]

theorem f64val_of_normal {d : Binary64} (h : (f64Exp d).toNat ≠ 0) :
    f64val d = (-1) ^ (f64Sign d).toNat *
      ((1 + ((f64Mant d).toNat : ℚ) / 2 ^ 52) * 2 ^ (((f64Exp d).toNat : ℤ) - 1023)) := by
  rw [show (((f64Exp d).toNat : ℤ) - 1023) = (f64Exp d).toNat - ((1022 : ℕ) + 1) by push_cast; ring,
    ← fieldMagnitude_div_eq 52 1022 _ h, f64val_eq, f64Magnitude, mul_div_assoc]
  rcases bit_cases (f64Sign d) with hs | hs <;> rw [hs] <;> simp

theorem abs_f32val_of_normal {f : Binary32} (h : (f32Exp f).toNat ≠ 0) :
    |f32val f| = (1 + ((f32Mant f).toNat : ℚ) / 2 ^ 23) * 2 ^ (((f32Exp f).toNat : ℤ) - 127) := by
  rw [f32val_of_normal h, abs_mul, abs_neg_one_pow, one_mul, abs_of_nonneg (by positivity)]

theorem abs_f64val_of_normal {d : Binary64} (h : (f64Exp d).toNat ≠ 0) :
    |f64val d| = (1 + ((f64Mant d).toNat : ℚ) / 2 ^ 52) * 2 ^ (((f64Exp d).toNat : ℤ) - 1023) := by
  rw [f64val_of_normal h, abs_mul, abs_neg_one_pow, one_mul, abs_of_nonneg (by positivity)]

/-! The values packed (40_encode.md R86). -/

/-- The 16 zeros below the mantissa and the two more of bias leave the value of a binary32 as it is. -/
theorem val_packed32 {f : Binary32} (h1 : 1 ≤ (f32Exp f).toNat) (h2 : (f32Exp f).toNat ≤ 253) :
    val (packed32 f) = f32val f := by
  obtain ⟨hs, he, hm⟩ := packed32_fields f h2
  have hp : packed32 f ≠ 0 := ne_zero_of_packedExp _ (by omega)
  have hexp : (((f32Exp f).toNat + 2 : ℕ) : ℤ) - 129 = (f32Exp f).toNat - 127 := by omega
  have hmant : (((f32Mant f).toNat * 2 ^ 16 : ℕ) : ℚ) / 2 ^ 39 = (f32Mant f).toNat / 2 ^ 23 := by
    push_cast
    ring
  rw [val_eq_sign_mul_magnitude, packedMagnitude_div_eq hp, f32val_of_normal (by omega), hs, he, hm, hexp, hmant]

theorem val_packed64 {d : Binary64} (h1 : 895 ≤ (f64Exp d).toNat) (h2 : (f64Exp d).toNat ≤ 1149) :
    val (packed64 d) = (-1) ^ (f64Sign d).toNat *
      ((1 + (((f64Mant d).toNat / 2 ^ 13 : ℕ) : ℚ) / 2 ^ 39) * 2 ^ (((f64Exp d).toNat : ℤ) - 1023)) := by
  obtain ⟨hs, he, hm⟩ := packed64_fields d h1 h2
  have hp : packed64 d ≠ 0 := ne_zero_of_packedExp _ (by omega)
  have hexp : (((f64Exp d).toNat - 894 : ℕ) : ℤ) - 129 = (f64Exp d).toNat - 1023 := by omega
  rw [val_eq_sign_mul_magnitude, packedMagnitude_div_eq hp, hs, he, hm, hexp]

theorem abs_val_packed64 {d : Binary64} (h1 : 895 ≤ (f64Exp d).toNat) (h2 : (f64Exp d).toNat ≤ 1149) :
    |val (packed64 d)| =
      (1 + (((f64Mant d).toNat / 2 ^ 13 : ℕ) : ℚ) / 2 ^ 39) * 2 ^ (((f64Exp d).toNat : ℤ) - 1023) := by
  rw [val_packed64 h1 h2, abs_mul, abs_neg_one_pow, one_mul, abs_of_nonneg (by positivity)]

/-- A mantissa fraction is the truncated one and the dropped bits. -/
theorem fraction_eq_truncated_add (m : ℕ) :
    (m : ℚ) / 2 ^ 52 = ((m / 2 ^ 13 : ℕ) : ℚ) / 2 ^ 39 + ((m % 2 ^ 13 : ℕ) : ℚ) / 2 ^ 52 := by
  have h : ((2 ^ 13 * (m / 2 ^ 13) + m % 2 ^ 13 : ℕ) : ℚ) = m := by rw [Nat.div_add_mod]
  rw [← h, Nat.cast_add, Nat.cast_mul]
  push_cast
  ring

/-- Truncation takes from the magnitude what the dropped bits stand for. -/
theorem abs_f64val_eq_packed_add_dropped {d : Binary64} (h1 : 895 ≤ (f64Exp d).toNat) (h2 : (f64Exp d).toNat ≤ 1149) :
    |f64val d| = |val (packed64 d)| +
      (((f64Mant d).toNat % 2 ^ 13 : ℕ) : ℚ) / 2 ^ 52 * 2 ^ (((f64Exp d).toNat : ℤ) - 1023) := by
  rw [abs_f64val_of_normal (by omega), abs_val_packed64 h1 h2, fraction_eq_truncated_add]
  ring

/-- Settles O21: the packed fields are those of the input, a binary64 mantissa without its low 13 bits. -/
theorem encodedValue : Obligations.EncodedValue := by
  refine ⟨fun f s h0 h254 => ?_, fun d s h1 h2 => ?_⟩
  · have hpos : 1 ≤ (f32Exp f).toNat := Nat.one_le_iff_ne_zero.mpr (mt (f32Exp_eq_zero f).mpr h0)
    exact ⟨packed32 f, exec_of_response_ok (i := .enc32 f) (enc32_in_band f hpos (by omega)) s, val_packed32 hpos (by omega)⟩
  · refine ⟨packed64 d, exec_of_response_ok (i := .enc64 d) (enc64_in_band d h1 h2) s, ?_, ?_, ?_⟩
    · rw [val_packed64 h1 h2, mul_assoc]
    · rw [abs_f64val_eq_packed_add_dropped h1 h2]
      exact le_add_of_nonneg_right (by positivity)
    · have hpow : (2 : ℚ) ^ (((f64Exp d).toNat : ℤ) - 1023) ≠ 0 := zpow_ne_zero _ two_ne_zero
      rw [abs_f64val_eq_packed_add_dropped h1 h2, left_eq_add, mul_eq_zero_iff_right hpow, div_eq_zero_iff,
        or_iff_left (pow_ne_zero _ two_ne_zero), Nat.cast_eq_zero]

/-! The band of accepted exponent fields as a band of magnitudes (40_encode.md R88). -/

/-- A mantissa of `w` bits makes a significand from 1 up to 2. -/
theorem significand_bounds {w : ℕ} (m : BitVec w) : 1 ≤ 1 + (m.toNat : ℚ) / 2 ^ w ∧ 1 + (m.toNat : ℚ) / 2 ^ w < 2 := by
  have hlt : (m.toNat : ℚ) / 2 ^ w < 1 := (div_lt_one (by positivity)).mpr (by exact_mod_cast m.isLt)
  exact ⟨le_add_of_nonneg_right (by positivity), by linarith⟩

/-- A significand from 1 up to 2 is below a power of two exactly when its exponent is. -/
theorem mul_zpow_lt_iff {x : ℚ} (h : 1 ≤ x ∧ x < 2) (k n : ℤ) : x * 2 ^ k < 2 ^ n ↔ k < n := by
  have hk : (0 : ℚ) < 2 ^ k := by positivity
  constructor
  · intro hx
    exact (zpow_lt_zpow_iff_right₀ one_lt_two).mp ((le_mul_of_one_le_left hk.le h.1).trans_lt hx)
  · intro hkn
    calc x * 2 ^ k < 2 * 2 ^ k := mul_lt_mul_of_pos_right h.2 hk
      _ = 2 ^ (k + 1) := by rw [zpow_add_one₀ two_ne_zero, mul_comm]
      _ ≤ 2 ^ n := zpow_le_zpow_right₀ one_le_two hkn

theorem abs_f64val_lt_iff {d : Binary64} (h : (f64Exp d).toNat ≠ 0) (n : ℤ) :
    |f64val d| < 2 ^ n ↔ ((f64Exp d).toNat : ℤ) - 1023 < n := by
  rw [abs_f64val_of_normal h, mul_zpow_lt_iff (significand_bounds _)]

theorem abs_f32val_lt_iff {f : Binary32} (h : (f32Exp f).toNat ≠ 0) (n : ℤ) :
    |f32val f| < 2 ^ n ↔ ((f32Exp f).toNat : ℤ) - 127 < n := by
  rw [abs_f32val_of_normal h, mul_zpow_lt_iff (significand_bounds _)]

/-- The band of R88 is that of the exponent fields 895 to 1149. -/
theorem f64_in_band_iff {d : Binary64} (h : (f64Exp d).toNat ≠ 0) :
    (2 : ℚ) ^ (-128 : ℤ) ≤ |f64val d| ∧ |f64val d| < 2 ^ 127 ↔ 895 ≤ (f64Exp d).toNat ∧ (f64Exp d).toNat ≤ 1149 := by
  rw [← not_lt, abs_f64val_lt_iff h, ← zpow_ofNat, abs_f64val_lt_iff h]
  omega

/-- Below 2^127 every normal binary32 has an exponent field up to 253. -/
theorem f32_in_band_iff {f : Binary32} (h : (f32Exp f).toNat ≠ 0) :
    |f32val f| < 2 ^ 127 ↔ (f32Exp f).toNat ≤ 253 := by
  rw [← zpow_ofNat, abs_f32val_lt_iff h]
  omega

/-- Settles O22: in the band of exponent fields the encoder packs, and outside it refuses the range. -/
theorem acceptedMagnitudes : Obligations.AcceptedMagnitudes := by
  refine ⟨fun d s h0 hfin => ?_, fun f s h0 h255 => ?_⟩
  · rw [Ne, f64Exp_eq_zero] at h0
    rw [isFinite64, bne_iff_ne, Ne, f64Exp_eq_ones] at hfin
    have hlt := (f64Exp d).isLt
    rw [f64_in_band_iff h0]
    refine ⟨fun ⟨h1, h2⟩ => ⟨packed64 d, exec_of_response_ok (i := .enc64 d) (enc64_in_band d h1 h2) s⟩, fun hout => ?_⟩
    exact exec_of_response_rangeOverflow (i := .enc64 d) (enc64_out_of_band d (by omega) (by omega) (by omega)) s
  · rw [Ne, f32Exp_eq_zero] at h0
    rw [Ne, f32Exp_eq_ones] at h255
    have hlt := (f32Exp f).isLt
    rw [← not_lt, f32_in_band_iff h0]
    refine ⟨fun hin => ?_, fun hout => ?_⟩
    · obtain ⟨-, hexp, -⟩ := packed32_fields f hin
      exact ⟨packed32 f, by omega, exec_of_response_ok (i := .enc32 f) (enc32_in_band f (by omega) hin) s⟩
    · exact exec_of_response_rangeOverflow (i := .enc32 f) (enc32_out_of_band (by omega)) s

end Sys2Proof.Machine
end

section
/-! PROOFS. fp48_decoder (41_decode.md): the results of DEC32, DEC64 and CLASS, the real values they unpack, and the round
trips through binary32 and binary64. -/

namespace Sys2Proof.Machine

/-! What DEC32 and DEC64 put into the pipeline (41_decode.md R100, R101). -/

theorem exec_dec32_in_band {p : Packed} (h : 3 ≤ (packedExp p).toNat) (s : State) :
    exec (.dec32 p) s = .next (s.clockEdge ⟨true, (unpacked32 p).setWidth 64, 0⟩) := by
  rw [exec_eq_accept, State.accept, response, dec32_in_band p h, entry_ok]

theorem exec_dec32_narrow {p : Packed} (h0 : p ≠ 0) (h : (packedExp p).toNat ≤ 2) (s : State) :
    exec (.dec32 p) s = .next (s.clockEdge ⟨true, 0, 3⟩) := by
  rw [exec_eq_accept, State.accept, response, dec32, if_neg h0, if_pos (by omega)]
  rfl

theorem exec_dec64 (p : Packed) (s : State) : exec (.dec64 p) s = .next (s.clockEdge ⟨true, decoded64 p, 0⟩) := by
  rw [exec_eq_accept, State.accept, response, dec64, entry_ok, BitVec.setWidth_eq]

/-! The unpacked binary32 as a number (41_decode.md R100). -/

/-- A binary32's number is the sum of its fields at their places (00_scope.md R19). -/
theorem f32_toNat_eq_fields (f : Binary32) :
    f.toNat = (f32Sign f).toNat * 2 ^ 31 + (f32Exp f).toNat * 2 ^ 23 + (f32Mant f).toNat := by
  have := f.isLt
  rw [f32Sign_toNat, f32Exp_toNat, f32Mant_toNat]
  omega

theorem unpacked32_toNat {p : Packed} (h : 3 ≤ (packedExp p).toNat) :
    (unpacked32 p).toNat =
      p.toNat / 2 ^ 47 * 2 ^ 31 + (p.toNat % 2 ^ 8 - 2) * 2 ^ 23 + p.toNat / 2 ^ 8 % 2 ^ 39 / 2 ^ 16 := by
  obtain ⟨hs, he, hm⟩ := unpacked32_fields p h
  rw [f32_toNat_eq_fields, hs, he, hm, packedSign_toNat, packedExp_toNat, packedMant_toNat]

/-- Settles O24, along the branches of the decoding: the zero pattern, a packed exponent too low, accepted. -/
theorem dec32Result : Obligations.Dec32Result := by
  refine ⟨decode_requestWord 0x2, fun p s => ?_⟩
  split_ifs with h0 hlow
  · rw [h0]
    rfl
  · exact exec_dec32_narrow h0 (by rwa [packedExp_toNat]) s
  · have hband : 3 ≤ (packedExp p).toNat := by rw [packedExp_toNat]; omega
    rw [exec_dec32_in_band hband, setWidth_eq_ofNat _ _ (unpacked32_toNat hband)]

/-- Settles O25: every pattern but zero, a non-canonical one included, takes the one branch. -/
theorem dec64Result : Obligations.Dec64Result := by
  refine ⟨decode_requestWord 0x3, fun p s => ?_⟩
  rw [exec_dec64]
  split_ifs with h0
  · rw [h0, decoded64_zero]
  · rw [← decoded64_toNat p h0, BitVec.ofNat_toNat, BitVec.setWidth_eq]

/-- Settles O26: the zero pattern is ZERO and every other NORMAL. -/
theorem classResult : Obligations.ClassResult := by
  refine ⟨decode_requestWord 0x4, fun p s => ?_⟩
  rw [exec_eq_accept, State.accept, response, classResponse, floatClass]
  split_ifs <;> rfl

/-! What the pipeline takes in tells the responses apart (10_state.md R26). -/

/-- Two responses that make the same edge have the same data and status. -/
theorem next_clockEdge_inj {s : State} {x y : Data} {a b : StatusCode} :
    (Host.Outcome.next (s.clockEdge ⟨true, x, a⟩) : Host.Outcome State Fault Refusal) =
      .next (s.clockEdge ⟨true, y, b⟩) ↔ x = y ∧ a = b := by
  refine ⟨fun h => ?_, fun ⟨hx, ha⟩ => by rw [hx, ha]⟩
  injection clockEdge_entry_inj s rfl rfl (Host.Outcome.next.inj h) with _ hx ha
  exact ⟨hx, ha⟩

/-! DEC64 is exact and injective (41_decode.md R105). -/

/-- Distinct patterns have distinct decodings: the zero pattern alone decodes to zero, and the others are told apart by their
fields. -/
theorem decoded64_injective : Function.Injective decoded64 := by
  intro p q h
  have hsign : packedSign p = packedSign q := by rw [← f64Sign_decoded64, h, f64Sign_decoded64]
  have hmant : (packedMant p).toNat * 2 ^ 13 = (packedMant q).toNat * 2 ^ 13 := by
    rw [← f64Mant_decoded64, h, f64Mant_decoded64]
  have hzero : p = 0 ↔ q = 0 := by
    rw [← decide_eq_decide, ← isZero64_decoded64, h, isZero64_decoded64]
  by_cases h0 : p = 0
  · rw [h0, hzero.mp h0]
  · have hexp : (packedExp p).toNat + 894 = (packedExp q).toNat + 894 := by
      rw [← f64Exp_decoded64 p h0, h, f64Exp_decoded64 q (mt hzero.mpr h0)]
    exact packed_ext hsign (by omega) (by omega)

/-- Settles O27. -/
theorem dec64ExactAndInjective : Obligations.Dec64ExactAndInjective := by
  refine ⟨fun p => ⟨decoded64 p, exec_dec64 p, f64val_decoded64 p, ?_⟩, fun p q s h => ?_⟩
  · by_cases h0 : p = 0
    · exact .inl ⟨by rw [h0, decoded64_zero], h0⟩
    · exact .inr ⟨by rw [f64Exp_decoded64 p h0]; omega, f64Exp_decoded64_le p⟩
  · rw [exec_dec64, exec_dec64, next_clockEdge_inj] at h
    exact decoded64_injective h.1

/-! DEC32 truncates the magnitude (41_decode.md R106). -/

theorem f32val_unpacked32 {p : Packed} (h : 3 ≤ (packedExp p).toNat) :
    f32val (unpacked32 p) = (-1) ^ (packedSign p).toNat *
      ((1 + (((packedMant p).toNat / 2 ^ 16 : ℕ) : ℚ) / 2 ^ 23) * 2 ^ (((packedExp p).toNat : ℤ) - 129)) := by
  obtain ⟨hs, he, hm⟩ := unpacked32_fields p h
  have hexp : (((packedExp p).toNat - 2 : ℕ) : ℤ) - 127 = (packedExp p).toNat - 129 := by omega
  rw [f32val_of_normal (by omega), hs, he, hm, hexp]

theorem abs_f32val_unpacked32 {p : Packed} (h : 3 ≤ (packedExp p).toNat) :
    |f32val (unpacked32 p)| =
      (1 + (((packedMant p).toNat / 2 ^ 16 : ℕ) : ℚ) / 2 ^ 23) * 2 ^ (((packedExp p).toNat : ℤ) - 129) := by
  rw [f32val_unpacked32 h, abs_mul, abs_neg_one_pow, one_mul, abs_of_nonneg (by positivity)]

theorem abs_val_of_ne_zero {p : Packed} (h : p ≠ 0) :
    |val p| = (1 + ((packedMant p).toNat : ℚ) / 2 ^ 39) * 2 ^ (((packedExp p).toNat : ℤ) - 129) := by
  rw [val_eq_sign_mul_magnitude, packedMagnitude_div_eq h, abs_mul, abs_neg_one_pow, one_mul,
    abs_of_nonneg (by positivity)]

/-- A fraction of `n` bits is the one truncated to `w` bits and the `k` dropped bits. -/
theorem fraction_eq_truncated_add_dropped {n w k : ℕ} (hn : n = w + k) (m : ℕ) :
    (m : ℚ) / 2 ^ n = ((m / 2 ^ k : ℕ) : ℚ) / 2 ^ w + ((m % 2 ^ k : ℕ) : ℚ) / 2 ^ n := by
  have h : ((2 ^ k * (m / 2 ^ k) + m % 2 ^ k : ℕ) : ℚ) = m := by rw [Nat.div_add_mod]
  rw [hn, pow_add, ← mul_div_mul_right (((m / 2 ^ k : ℕ) : ℚ)) _ (pow_ne_zero k two_ne_zero), ← add_div, ← h]
  push_cast
  ring

/-- Truncation takes from the magnitude what the dropped bits stand for. -/
theorem abs_val_eq_unpacked_add_dropped {p : Packed} (h : 3 ≤ (packedExp p).toNat) :
    |val p| = |f32val (unpacked32 p)| +
      (((packedMant p).toNat % 2 ^ 16 : ℕ) : ℚ) / 2 ^ 39 * 2 ^ (((packedExp p).toNat : ℤ) - 129) := by
  rw [abs_val_of_ne_zero (ne_zero_of_packedExp p (by omega)), abs_f32val_unpacked32 h,
    fraction_eq_truncated_add_dropped (show 39 = 23 + 16 from rfl)]
  ring

/-- The mantissa bits DEC32 drops are `p[23:8]` (41_decode.md R106). -/
theorem packedMant_low_toNat (p : Packed) : (packedMant p).toNat % 2 ^ 16 = p.toNat / 2 ^ 8 % 2 ^ 16 := by
  rw [packedMant_toNat]
  omega

/-- Settles O28: the magnitude of the pattern is that of the result and a part that is zero with the dropped bits. -/
theorem dec32Value : Obligations.Dec32Value := by
  intro p s _ h
  obtain ⟨-, hexp, -⟩ := unpacked32_fields p h
  have hlt := (packedExp p).isLt
  refine ⟨unpacked32 p, exec_dec32_in_band h s, ?_, ?_, ?_, by omega, by omega⟩
  · rw [f32val_unpacked32 h, mul_assoc]
  · rw [abs_val_eq_unpacked_add_dropped h]
    exact le_add_of_nonneg_right (by positivity)
  · have hpow : (2 : ℚ) ^ (((packedExp p).toNat : ℤ) - 129) ≠ 0 := zpow_ne_zero _ two_ne_zero
    rw [abs_val_eq_unpacked_add_dropped h, left_eq_add, mul_eq_zero_iff_right hpow, div_eq_zero_iff,
      or_iff_left (pow_ne_zero _ two_ne_zero), Nat.cast_eq_zero, packedMant_low_toNat]

/-! Round trips through binary32 (41_decode.md R107 (a) and (d)). -/

theorem unpacked32_packed32 {f : Binary32} (h1 : 1 ≤ (f32Exp f).toNat) (h2 : (f32Exp f).toNat ≤ 253) :
    unpacked32 (packed32 f) = f := by
  obtain ⟨hs, he, hm⟩ := packed32_fields f h2
  obtain ⟨hs', he', hm'⟩ := unpacked32_fields (packed32 f) (by omega)
  exact binary32_ext (hs'.trans hs) (by omega) (by omega)

/-- Packing what was unpacked puts zeros for the mantissa bits that were dropped. -/
theorem packed32_unpacked32_eq_iff {p : Packed} (h : 3 ≤ (packedExp p).toNat) :
    packed32 (unpacked32 p) = p ↔ p.toNat / 2 ^ 8 % 2 ^ 16 = 0 := by
  have hlt := (packedExp p).isLt
  obtain ⟨hs, he, hm⟩ := unpacked32_fields p h
  obtain ⟨hs', he', hm'⟩ := packed32_fields (unpacked32 p) (by omega)
  rw [← packedMant_low_toNat]
  constructor
  · intro heq
    rw [heq] at hm'
    omega
  · intro hlow
    exact packed_ext (hs'.trans hs) (by omega) (by omega)

/-- DEC32 of a nonzero pattern answers OK with `f` exactly when the packed exponent is in range and `f` is the unpacked
value. -/
theorem exec_dec32_eq_ok_iff {p : Packed} (h0 : p ≠ 0) (f : Binary32) (s : State) :
    exec (.dec32 p) s = .next (s.clockEdge ⟨true, f.setWidth 64, 0⟩) ↔
      3 ≤ (packedExp p).toNat ∧ unpacked32 p = f := by
  by_cases h : 3 ≤ (packedExp p).toNat
  · rw [exec_dec32_in_band h, next_clockEdge_inj, and_iff_left rfl, and_iff_right h]
    exact (Function.LeftInverse.injective operandF32_setWidth).eq_iff
  · rw [exec_dec32_narrow h0 (by omega), next_clockEdge_inj]
    exact iff_of_false (fun hc => absurd hc.2 (by decide)) fun hc => h hc.1

/-- ENC32 in range answers OK with `p` exactly when `p` is what it packs. -/
theorem exec_enc32_eq_ok_iff {f : Binary32} (h1 : 1 ≤ (f32Exp f).toNat) (h2 : (f32Exp f).toNat ≤ 253) (p : Packed)
    (s : State) :
    exec (.enc32 f) s = .next (s.clockEdge ⟨true, p.setWidth 64, 0⟩) ↔ packed32 f = p := by
  rw [exec_of_response_ok (i := .enc32 f) (enc32_in_band f h1 h2), next_clockEdge_inj, and_iff_left rfl]
  exact (Function.LeftInverse.injective operandP_setWidth).eq_iff

/-- Settles O29: (a) the fields come back as they were; (d) the second encoding meets the unpacked value, which DEC32 gives
only for a packed exponent in range. -/
theorem roundTripBinary32 : Obligations.RoundTripBinary32 := by
  refine ⟨fun f s h1 h2 => ?_, fun p s _ h0 => ?_⟩
  · obtain ⟨-, hexp, -⟩ := packed32_fields f h2
    refine ⟨packed32 f, (exec_enc32_eq_ok_iff h1 h2 _ s).mpr rfl, ?_⟩
    rw [exec_dec32_in_band (by omega), unpacked32_packed32 h1 h2]
  · simp only [exec_dec32_eq_ok_iff h0, and_assoc, exists_and_left, exists_eq_left']
    refine and_congr_right fun h => ?_
    obtain ⟨-, hexp, -⟩ := unpacked32_fields p h
    have hlt := (packedExp p).isLt
    rw [exec_enc32_eq_ok_iff (by omega) (by omega), packed32_unpacked32_eq_iff h]

/-! Round trips through binary64 (41_decode.md R107 (b), (c) and (e)). -/

/-- Masking with `0xFFFFFFFFFFFFE000` clears `d[12:0]`. -/
theorem and_mask_eq_append (d : Binary64) : d &&& 0xFFFFFFFFFFFFE000 = d.extractLsb' 13 51 ++ (0 : BitVec 13) := by
  have hd : d = d.extractLsb' 13 51 ++ d.extractLsb' 0 13 :=
    ((BitVec.extractLsb'_append_extractLsb'_eq_extractLsb' (Nat.zero_add 13).symm).trans BitVec.extractLsb'_eq_self).symm
  have hmask : (0xFFFFFFFFFFFFE000 : Binary64) = BitVec.allOnes 51 ++ (0 : BitVec 13) := by decide
  conv_lhs => rw [hd, hmask]
  rw [BitVec.and_append, BitVec.and_allOnes]
  congr 1
  exact BitVec.and_zero

theorem and_mask_toNat (d : Binary64) : (d &&& 0xFFFFFFFFFFFFE000).toNat = d.toNat / 2 ^ 13 * 2 ^ 13 := by
  have := d.isLt
  rw [and_mask_eq_append, toNat_append_add, toNat_extract, show (0 : BitVec 13).toNat = 0 from rfl]
  omega

/-- The 39 mantissa bits that ENC64 keeps come back above 13 zeros. -/
theorem decoded64_packed64 {d : Binary64} (h1 : 895 ≤ (f64Exp d).toNat) (h2 : (f64Exp d).toNat ≤ 1149) :
    decoded64 (packed64 d) = d &&& 0xFFFFFFFFFFFFE000 := by
  obtain ⟨hs, he, hm⟩ := packed64_fields d h1 h2
  have hp : packed64 d ≠ 0 := ne_zero_of_packedExp _ (by omega)
  have hmask := and_mask_toNat d
  refine binary64_ext (BitVec.eq_of_toNat_eq ?_) ?_ ?_
  · rw [f64Sign_decoded64, hs, f64Sign_toNat, f64Sign_toNat]
    omega
  · rw [f64Exp_decoded64 _ hp, he, Nat.sub_add_cancel (by omega), f64Exp_toNat, f64Exp_toNat]
    omega
  · rw [f64Mant_decoded64, hm, f64Mant_toNat, f64Mant_toNat]
    omega

theorem packed64_decoded64 {p : Packed} (h : 1 ≤ (packedExp p).toNat) : packed64 (decoded64 p) = p := by
  have hexp := f64Exp_decoded64 p (ne_zero_of_packedExp p h)
  have hmant := f64Mant_decoded64 p
  obtain ⟨hs, he, hm⟩ := packed64_fields (decoded64 p) (by omega) (f64Exp_decoded64_le p)
  exact packed_ext (hs.trans (f64Sign_decoded64 p)) (by omega) (by omega)

theorem enc64_decoded64_of_canonical {p : Packed} (h : isCanonical p = true) : enc64 (decoded64 p) = ok p := by
  rcases (isCanonical_iff p).mp h with h0 | hexp
  · rw [h0]
    rfl
  · have hexp64 := f64Exp_decoded64 p (ne_zero_of_packedExp p hexp)
    rw [enc64_in_band _ (by omega) (f64Exp_decoded64_le p), packed64_decoded64 hexp]

/-- A non-canonical pattern decodes to exponent field 894, one below the band of ENC64 (41_decode.md R107 (e)). -/
theorem enc64_decoded64_of_not_canonical {p : Packed} (h : isCanonical p = false) :
    enc64 (decoded64 p) = raise .rangeOverflow := by
  rw [← Bool.not_eq_true, isCanonical_iff, not_or] at h
  have hexp := f64Exp_decoded64 p h.1
  exact enc64_out_of_band _ (by omega) (by omega) (by omega)

/-- Settles O30: (b) by the fields of the masked binary64; (c) and (e) by the exponent field of the decoding. -/
theorem roundTripBinary64 : Obligations.RoundTripBinary64 := by
  refine ⟨fun d s h1 h2 => ⟨packed64 d, exec_of_response_ok (i := .enc64 d) (enc64_in_band d h1 h2) s, ?_⟩,
    fun p s => ⟨decoded64 p, exec_dec64 p s, fun h => ?_, fun h => ?_⟩⟩
  · rw [exec_dec64, decoded64_packed64 h1 h2]
  · exact exec_of_response_ok (i := .enc64 _) (enc64_decoded64_of_canonical h) s
  · exact exec_of_response_rangeOverflow (i := .enc64 _) (enc64_decoded64_of_not_canonical h) s

end Sys2Proof.Machine
end

section
/-! PROOFS. fp48_compare (42_compare.md R120 to R126): the relation of two patterns is that of their values, and the value is a
strictly increasing function of the signed key of the bit-level order. -/

namespace Sys2Proof.Machine

/-! The value as a function of the signed key (42_compare.md R126). -/

/-- The magnitude, in 2^-168, of the patterns with an order key: the key less one holds the exponent field above the
mantissa. -/
def magnitudeOfKey : Nat → Nat
  | 0 => 0
  | n + 1 => (2 ^ 39 + n % 2 ^ 39) * 2 ^ (n / 2 ^ 39)

/-- The next key is the next mantissa, or after the last one the next exponent field with mantissa 0. -/
theorem magnitudeOfKey_lt_succ (n : Nat) : magnitudeOfKey n < magnitudeOfKey (n + 1) := by
  cases n with
  | zero => decide
  | succ n =>
    rw [magnitudeOfKey, magnitudeOfKey]
    by_cases hlast : n % 2 ^ 39 + 1 = 2 ^ 39
    · have hmant : (n + 1) % 2 ^ 39 = 0 := by omega
      have hexp : (n + 1) / 2 ^ 39 = n / 2 ^ 39 + 1 := by omega
      rw [hmant, hexp]
      calc (2 ^ 39 + n % 2 ^ 39) * 2 ^ (n / 2 ^ 39)
        _ < 2 ^ 40 * 2 ^ (n / 2 ^ 39) := Nat.mul_lt_mul_of_pos_right (by omega) (two_pow_pos _)
        _ = (2 ^ 39 + 0) * 2 ^ (n / 2 ^ 39 + 1) := by ring
    · have hmant : (n + 1) % 2 ^ 39 = n % 2 ^ 39 + 1 := by omega
      have hexp : (n + 1) / 2 ^ 39 = n / 2 ^ 39 := by omega
      rw [hmant, hexp]
      exact Nat.mul_lt_mul_of_pos_right (by omega) (two_pow_pos _)

theorem magnitudeOfKey_strictMono : StrictMono magnitudeOfKey := strictMono_nat_of_lt_succ magnitudeOfKey_lt_succ

/-- The number the key of a nonzero pattern is made of, less one: exponent field, then mantissa. -/
theorem orderKey_of_ne_zero {p : Packed} (h : p ≠ 0) :
    orderKey p = (packedExp p).toNat * 2 ^ 39 + (packedMant p).toNat + 1 := by
  rw [orderKey, if_neg h, toNat_append_add, Nat.add_comm]

theorem orderKey_eq_zero (p : Packed) : orderKey p = 0 ↔ p = 0 := by
  by_cases h : p = 0
  · exact iff_of_true (if_pos h) h
  · rw [orderKey_of_ne_zero h]
    exact iff_of_false (Nat.succ_ne_zero _) h

theorem magnitudeOfKey_orderKey (p : Packed) : magnitudeOfKey (orderKey p) = packedMagnitude p := by
  by_cases h : p = 0
  · rw [(orderKey_eq_zero p).mpr h, (packedMagnitude_eq_zero p).mpr h, magnitudeOfKey]
  · have hlt := (packedMant p).isLt
    have hmant : ((packedExp p).toNat * 2 ^ 39 + (packedMant p).toNat) % 2 ^ 39 = (packedMant p).toNat := by omega
    have hexp : ((packedExp p).toNat * 2 ^ 39 + (packedMant p).toNat) / 2 ^ 39 = (packedExp p).toNat := by omega
    rw [orderKey_of_ne_zero h, magnitudeOfKey, hmant, hexp, packedMagnitude, if_neg h]

/-- The value, in 2^-168, of the patterns with a signed key: the odd extension of `magnitudeOfKey`. -/
def scaledOfKey (z : Int) : Int := z.sign * magnitudeOfKey z.natAbs

theorem scaledOfKey_neg (z : Int) : scaledOfKey (-z) = -scaledOfKey z := by
  rw [scaledOfKey, Int.sign_neg, Int.natAbs_neg, neg_mul, scaledOfKey]

theorem scaledOfKey_natCast (n : Nat) : scaledOfKey n = magnitudeOfKey n := by
  cases n with
  | zero => rfl
  | succ n => rw [scaledOfKey, Int.sign_natCast_of_ne_zero n.succ_ne_zero, one_mul, Int.natAbs_natCast]

theorem scaledOfKey_strictMono : StrictMono scaledOfKey := by
  refine strictMono_of_odd_strictMonoOn_nonneg scaledOfKey_neg fun x hx y hy hxy => ?_
  lift x to Nat using hx
  lift y to Nat using hy
  rw [scaledOfKey_natCast, scaledOfKey_natCast]
  exact Int.ofNat_lt.mpr (magnitudeOfKey_strictMono (Int.ofNat_lt.mp hxy))

theorem scaledOfKey_orderValue (p : Packed) : scaledOfKey (orderValue p) = packedScaled p := by
  rw [orderValue, packedScaled, ← magnitudeOfKey_orderKey, ← scaledOfKey_natCast, ← scaledOfKey_neg]
  split_ifs <;> rfl

theorem val_lt_val_iff_orderValue (a b : Packed) : val a < val b ↔ orderValue a < orderValue b := by
  rw [val, val, div_lt_div_iff_of_pos_right (by positivity), Int.cast_lt, ← scaledOfKey_orderValue,
    ← scaledOfKey_orderValue, scaledOfKey_strictMono.lt_iff_lt]

theorem val_eq_val_iff_orderValue (a b : Packed) : val a = val b ↔ orderValue a = orderValue b := by
  rw [val, val, div_left_inj' (by positivity), Int.cast_inj, ← scaledOfKey_orderValue, ← scaledOfKey_orderValue,
    scaledOfKey_strictMono.injective.eq_iff]

/-! The value tells the patterns apart (42_compare.md R125). -/

theorem orderValue_natAbs (p : Packed) : (orderValue p).natAbs = orderKey p := by
  rw [orderValue]
  split_ifs
  · rw [Int.natAbs_neg, Int.natAbs_natCast]
  · rw [Int.natAbs_natCast]

/-- A nonzero pattern has a key of its sign, which is never 0. -/
theorem orderValue_neg_iff {p : Packed} (h : p ≠ 0) : orderValue p < 0 ↔ packedSign p = 1 := by
  have hkey := orderKey_of_ne_zero h
  rw [orderValue]
  split_ifs with hs
  · exact iff_of_true (by omega) hs
  · exact iff_of_false (by omega) hs

theorem bit_ext {s t : BitVec 1} (h : s = 1 ↔ t = 1) : s = t := by
  revert s t
  decide

/-- The signed key keeps all three fields: sign, exponent field and mantissa. -/
theorem orderValue_injective : Function.Injective orderValue := by
  intro p q h
  have hkey : orderKey p = orderKey q := by rw [← orderValue_natAbs, h, orderValue_natAbs]
  have hzero : p = 0 ↔ q = 0 := by rw [← orderKey_eq_zero, hkey, orderKey_eq_zero]
  by_cases hp : p = 0
  · rw [hp, hzero.mp hp]
  · have hq : q ≠ 0 := mt hzero.mpr hp
    have hsign : packedSign p = 1 ↔ packedSign q = 1 := by
      rw [← orderValue_neg_iff hp, h, orderValue_neg_iff hq]
    rw [orderKey_of_ne_zero hp, orderKey_of_ne_zero hq] at hkey
    have hmp := (packedMant p).isLt
    have hmq := (packedMant q).isLt
    exact packed_ext (bit_ext hsign) (by omega) (by omega)

theorem val_injective : Function.Injective val := fun a b h =>
  orderValue_injective ((val_eq_val_iff_orderValue a b).mp h)

/-! `Rel(a, b)` (42_compare.md R120) and its codes. -/

/-- The values compare as the decodings do, in the unit 2^-1074 of binary64 (41_decode.md R105). -/
theorem val_lt_val_iff_f64Scaled (a b : Packed) :
    val a < val b ↔ f64Scaled (decoded64 a) < f64Scaled (decoded64 b) := by
  rw [← f64val_decoded64, ← f64val_decoded64, f64val, f64val, div_lt_div_iff_of_pos_right (by positivity), Int.cast_lt]

theorem val_eq_val_iff_f64Scaled (a b : Packed) :
    val a = val b ↔ f64Scaled (decoded64 a) = f64Scaled (decoded64 b) := by
  rw [← f64val_decoded64, ← f64val_decoded64, f64val, f64val, div_left_inj' (by positivity), Int.cast_inj]

/-- No decoding is a NaN, so the relation is that of the values, and UN does not occur. -/
theorem rel_eq (a b : Packed) : rel a b = if val a < val b then .lt else if val a = val b then .eq else .gt := by
  rw [rel, rel64, isNaN64_decoded64, isNaN64_decoded64]
  simp only [val_lt_val_iff_f64Scaled, val_eq_val_iff_f64Scaled]
  rfl

theorem rel_eq_lt_iff (a b : Packed) : rel a b = .lt ↔ val a < val b := by
  rw [rel_eq]
  split_ifs with hlt heq
  · exact iff_of_true rfl hlt
  · exact iff_of_false nofun hlt
  · exact iff_of_false nofun hlt

theorem rel_eq_eq_iff (a b : Packed) : rel a b = .eq ↔ val a = val b := by
  rw [rel_eq]
  split_ifs with hlt heq
  · exact iff_of_false nofun hlt.ne
  · exact iff_of_true rfl heq
  · exact iff_of_false nofun heq

theorem rel_eq_gt_iff (a b : Packed) : rel a b = .gt ↔ val b < val a := by
  rw [rel_eq]
  split_ifs with hlt heq
  · exact iff_of_false nofun hlt.not_gt
  · exact iff_of_false nofun heq.not_gt
  · exact iff_of_true rfl (lt_of_le_of_ne (not_lt.mp hlt) (Ne.symm heq))

/-- The entry of a truth value in one bit (30_encoding.md R63). -/
theorem entry_truthCode (t : Bool) : (ok (truthCode t)).entry = if t then ⟨true, 1, 0⟩ else ⟨true, 0, 0⟩ := by
  cases t <;> rfl

theorem Rel.code_setWidth_eq_zero (r : Rel) : r.code.setWidth 64 = 0 ↔ r = .eq := by
  cases r <;> decide

theorem exec_cmp (a b : Packed) (s : State) :
    exec (.cmp a b) s = .next (s.clockEdge ⟨true, (rel a b).code.setWidth 64, 0⟩) := by
  rw [exec_eq_accept, State.accept, response, cmpResponse, entry_ok]

/-- Settles O31, by the three relations of the values. -/
theorem cmpResult : Obligations.CmpResult := by
  refine ⟨decode_requestWord 0x7, fun a b s => ?_⟩
  rw [exec_cmp, rel_eq]
  split_ifs <;> rfl

/-- Settles O32: the truth value is that of the relation LT, or GT. -/
theorem orderingComparisonResults : Obligations.OrderingComparisonResults := by
  refine ⟨decode_requestWord 0x8, decode_requestWord 0x9, fun a b s => ?_, fun a b s => ?_⟩
  · rw [exec_eq_accept, State.accept, response, cmpltResponse, entry_truthCode]
    simp only [beq_iff_eq, rel_eq_lt_iff]
  · rw [exec_eq_accept, State.accept, response, cmpgtResponse, entry_truthCode]
    simp only [beq_iff_eq, rel_eq_gt_iff]

/-- Settles O33: the order of the values is that of the signed keys. -/
theorem cmpByOrderKey : Obligations.CmpByOrderKey := by
  intro a b s
  simp only [cmpResult.2 a b s, val_lt_val_iff_orderValue, val_eq_val_iff_orderValue]

/-- Settles O34: the value is injective, and code 0 is that of EQ alone. -/
theorem equalExactlyWhenSamePattern : Obligations.EqualExactlyWhenSamePattern := by
  refine ⟨fun _ _ h => val_injective h, fun a b s => ?_⟩
  rw [exec_cmp, next_clockEdge_inj, and_iff_left rfl, Rel.code_setWidth_eq_zero, rel_eq_eq_iff, val_injective.eq_iff]

end Sys2Proof.Machine
end

section
/-! PROOFS. fp48_arith (43_arith.md): POS and NEG on the bits; ADD, SUB, MUL and DIV as one rounding of the exact result, and
the corner cases where the exact result is a binary64 already. -/

namespace Sys2Proof.Machine

/-! POS and NEG (43_arith.md R140, R141). -/

/-- Settles O35: the response is the operand, zero-extended. -/
theorem posResult : Obligations.PosResult :=
  ⟨decode_requestWord 0x5, fun p s => exec_of_response_ok (i := .pos p) rfl s⟩

theorem exec_neg (p : Packed) (s : State) :
    exec (.neg p) s = .next (s.clockEdge ⟨true, (negated p).setWidth 64, 0⟩) :=
  exec_of_response_ok (i := .neg p) rfl s

theorem packedMant_negated (p : Packed) : packedMant (negated p) = packedMant p := by
  unfold negated
  split_ifs with h
  · rw [h]
  · rw [packedMant, BitVec.extractLsb'_xor]
    exact BitVec.xor_zero

theorem packedSign_negated {p : Packed} (h : p ≠ 0) : packedSign (negated p) = packedSign p ^^^ 1 := by
  rw [negated, if_neg h, packedSign, BitVec.extractLsb'_xor]
  rfl

theorem bit_flip_toNat (s : BitVec 1) : (s ^^^ 1).toNat = 1 - s.toNat := by
  rcases bit_cases s with h | h <;> rw [h] <;> rfl

/-- Flipping bit 47 adds its weight modulo 2^48. -/
theorem negated_toNat {p : Packed} (h : p ≠ 0) : (negated p).toNat = (p.toNat + 2 ^ 47) % 2 ^ 48 := by
  have hs := (packedSign p).isLt
  have hm := (packedMant p).isLt
  have he := (packedExp p).isLt
  rw [toNat_eq_fields (negated p), toNat_eq_fields p, packedSign_negated h, packedMant_negated, packedExp_negated,
    bit_flip_toNat]
  omega

/-- Settles O36: zero has a clause of its own, and on every other pattern NEG adds 2^47. -/
theorem negResult : Obligations.NegResult := by
  refine ⟨decode_requestWord 0x6, fun p s => ?_⟩
  rw [exec_neg]
  split_ifs with h
  · rw [h]
    rfl
  · rw [setWidth_eq_ofNat _ _ (negated_toNat h)]

theorem negated_eq_zero_iff (p : Packed) : negated p = 0 ↔ p = 0 ∨ p = 0x800000000000 := by
  unfold negated
  split_ifs with h
  · exact iff_of_true rfl (.inl h)
  · rw [or_iff_right h]
    exact BitVec.xor_eq_zero_iff

theorem negated_negated {p : Packed} (h : p ≠ 0x800000000000) : negated (negated p) = p := by
  by_cases h0 : p = 0
  · rw [h0]
    rfl
  · have hn : negated p ≠ 0 := mt (negated_eq_zero_iff p).mp (not_or.mpr ⟨h0, h⟩)
    rw [negated, if_neg hn, negated, if_neg h0, BitVec.xor_assoc, BitVec.xor_self, BitVec.xor_zero]

theorem packedMagnitude_negated {p : Packed} (h : p ≠ 0x800000000000) :
    packedMagnitude (negated p) = packedMagnitude p := by
  have hzero : negated p = 0 ↔ p = 0 := by rw [negated_eq_zero_iff, or_iff_left h]
  rw [packedMagnitude, packedMagnitude, packedMant_negated, packedExp_negated]
  exact if_congr hzero rfl rfl

/-- NEG negates the value of every pattern but the sign-only one, whose value is not 0 (10_state.md R30). -/
theorem packedScaled_negated {p : Packed} (h : p ≠ 0x800000000000) : packedScaled (negated p) = -packedScaled p := by
  by_cases h0 : p = 0
  · rw [h0]
    rfl
  · rw [packedScaled, packedScaled, packedMagnitude_negated h, packedSign_negated h0]
    rcases bit_cases (packedSign p) with hs | hs <;> simp [hs]

theorem val_negated {p : Packed} (h : p ≠ 0x800000000000) : val (negated p) = -val p := by
  rw [val, packedScaled_negated h, Int.cast_neg, neg_div, val]

/-- Settles O37: the two flips of bit 47 undo each other unless the first one ends at the zero pattern. -/
theorem negNegatesAndIsInvolution : Obligations.NegNegatesAndIsInvolution := by
  refine ⟨fun p s h => ⟨negated p, exec_neg p s, val_negated h, ?_⟩, exec_neg _⟩
  rw [exec_neg, negated_negated h]

/-! ADD, SUB, MUL and DIV round the exact result once (43_arith.md R142, R148). -/

theorem f64Scaled_natAbs (x : Binary64) : (f64Scaled x).natAbs = f64Magnitude x := by
  rw [f64Scaled]
  split_ifs
  · rw [Int.natAbs_neg, Int.natAbs_natCast]
  · rw [Int.natAbs_natCast]

/-- Powers of two in their order, stated apart so that no large one is evaluated. -/
theorem two_pow_le {m n : ℕ} (h : m ≤ n) : 2 ^ m ≤ 2 ^ n := pow_le_pow_right₀ one_le_two h

theorem two_pow_mul_le {k l m n : ℕ} (h : k + l ≤ m + n) : 2 ^ k * 2 ^ l ≤ 2 ^ m * 2 ^ n := by
  rw [← pow_add, ← pow_add]
  exact two_pow_le h

/-- The sum of two binary64 below 2^127, as every decoding is, is rounded to the nearest. -/
theorem round64_sum_nearest {x y : Binary64} (hx : f64Magnitude x < 2 ^ 1201) (hy : f64Magnitude y < 2 ^ 1201) :
    IsNearestEven (f64val x + f64val y) (round64 (sumSign x y) (f64Scaled x + f64Scaled y).natAbs 1) := by
  have hbound : (f64Scaled x + f64Scaled y).natAbs < 2 ^ 2097 :=
    calc (f64Scaled x + f64Scaled y).natAbs
      _ ≤ f64Magnitude x + f64Magnitude y := by
        rw [← f64Scaled_natAbs, ← f64Scaled_natAbs]
        exact Int.natAbs_add_le _ _
      _ < 2 ^ 1201 + 2 ^ 1201 := Nat.add_lt_add hx hy
      _ = 2 ^ 1202 := by rw [← two_mul, ← pow_succ']
      _ ≤ 2 ^ 2097 := two_pow_le (by decide)
  rw [← sumSign_value]
  exact round64_nearest _ _ _ one_pos (by rwa [one_mul])

/-- Settles O38: no decoding is special, so ADD is one rounding of the exact sum. -/
theorem addEncodesNearestSum : Obligations.AddEncodesNearestSum := by
  refine ⟨decode_requestWord 0xA, fun a b s => ⟨add64 (decoded64 a) (decoded64 b), ?_, exec_eq_accept _ s⟩⟩
  rw [add64_decoded, ← f64val_decoded64 a, ← f64val_decoded64 b]
  exact round64_sum_nearest (f64Magnitude_decoded64_lt a) (f64Magnitude_decoded64_lt b)

theorem f64val_neg64 (x : Binary64) : f64val (neg64 x) = -f64val x := by
  rw [f64val, neg64_scaled, Int.cast_neg, neg_div, f64val]

theorem f64Magnitude_neg64 (x : Binary64) : f64Magnitude (neg64 x) = f64Magnitude x := by
  rw [← f64Scaled_natAbs, neg64_scaled, Int.natAbs_neg, f64Scaled_natAbs]

/-- Settles O39: the difference is the sum with the second operand's sign flipped. -/
theorem subEncodesNearestDifference : Obligations.SubEncodesNearestDifference := by
  refine ⟨decode_requestWord 0xB, fun a b s => ⟨sub64 (decoded64 a) (decoded64 b), ?_, exec_eq_accept _ s⟩⟩
  rw [sub64_decoded, ← f64val_decoded64 a, ← f64val_decoded64 b, sub_eq_add_neg, ← f64val_neg64]
  refine round64_sum_nearest (f64Magnitude_decoded64_lt a) ?_
  rw [f64Magnitude_neg64]
  exact f64Magnitude_decoded64_lt b

/-- The signed exact product of two decodings, in the form `round64` takes. -/
theorem mul_value (a b : Packed) :
    (if packedSign a ^^^ packedSign b = 1 then (-1 : ℚ) else 1) *
      (((f64Magnitude (decoded64 a) * f64Magnitude (decoded64 b) : ℕ) : ℚ) / (2 ^ 1074 : ℕ)) / 2 ^ 1074 =
      val a * val b := by
  rw [sign_xor, val_eq_f64Magnitude, val_eq_f64Magnitude, Nat.cast_mul, Nat.cast_pow, Nat.cast_ofNat]
  generalize (2 : ℚ) ^ 1074 = unit
  ring

theorem product_bound (a b : Packed) :
    f64Magnitude (decoded64 a) * f64Magnitude (decoded64 b) < 2 ^ 1074 * 2 ^ 2097 :=
  calc f64Magnitude (decoded64 a) * f64Magnitude (decoded64 b)
    _ < 2 ^ 1201 * 2 ^ 1201 := Nat.mul_lt_mul'' (f64Magnitude_decoded64_lt a) (f64Magnitude_decoded64_lt b)
    _ ≤ 2 ^ 1074 * 2 ^ 2097 := two_pow_mul_le (by decide)

/-- Settles O40: the product of the magnitudes counts 2^-2148, and dividing by 2^1074 takes it to the unit of binary64. -/
theorem mulEncodesNearestProduct : Obligations.MulEncodesNearestProduct := by
  refine ⟨decode_requestWord 0xC, fun a b s => ⟨mul64 (decoded64 a) (decoded64 b), ?_, exec_eq_accept _ s⟩⟩
  have hnear := round64_nearest (packedSign a ^^^ packedSign b) _ _ (two_pow_pos 1074) (product_bound a b)
  rwa [mul_value, ← mul64_decoded] at hnear

/-- A quotient of magnitudes is below 2^256, far from overflow (43_arith.md R148). -/
theorem quotient_bound (a : Packed) {b : Packed} (hb : b ≠ 0) :
    f64Magnitude (decoded64 a) * 2 ^ 1074 < f64Magnitude (decoded64 b) * 2 ^ 2097 :=
  calc f64Magnitude (decoded64 a) * 2 ^ 1074
    _ < 2 ^ 1201 * 2 ^ 1074 := Nat.mul_lt_mul_of_pos_right (f64Magnitude_decoded64_lt a) (two_pow_pos _)
    _ ≤ 2 ^ 945 * 2 ^ 2097 := two_pow_mul_le (by decide)
    _ ≤ f64Magnitude (decoded64 b) * 2 ^ 2097 := Nat.mul_le_mul_right _ (le_f64Magnitude_decoded64 b hb)

/-- A sign is its own inverse. -/
theorem sign_inv (s : BitVec 1) : (if s = 1 then (-1 : ℚ) else 1)⁻¹ = if s = 1 then -1 else 1 := by
  split_ifs <;> norm_num

/-- The signed exact quotient of two decodings, in the form `round64` takes. -/
theorem div_value (a b : Packed) :
    (if packedSign a ^^^ packedSign b = 1 then (-1 : ℚ) else 1) *
      (((f64Magnitude (decoded64 a) * 2 ^ 1074 : ℕ) : ℚ) / f64Magnitude (decoded64 b)) / 2 ^ 1074 = val a / val b := by
  have hunit : (2 : ℚ) ^ 1074 ≠ 0 := pow_ne_zero _ two_ne_zero
  rw [sign_xor, val_eq_f64Magnitude, val_eq_f64Magnitude, Nat.cast_mul, Nat.cast_pow, Nat.cast_ofNat,
    div_div_div_cancel_right₀ hunit, mul_div_mul_comm, mul_div_right_comm (f64Magnitude (decoded64 a) : ℚ), ← mul_assoc,
    mul_div_cancel_right₀ _ hunit, div_eq_mul_inv (ite _ _ _), sign_inv]

theorem f64Magnitude_decoded64_pos {p : Packed} (h : p ≠ 0) : 0 < f64Magnitude (decoded64 p) :=
  (two_pow_pos 945).trans_le (le_f64Magnitude_decoded64 p h)

/-- Division by zero: a NaN for 0 / 0, an Infinity else. -/
theorem div64_decoded_zero (a : Packed) :
    div64 (decoded64 a) (decoded64 0) = if a = 0 then nan64 else inf64 (packedSign a) := by
  have hsign : packedSign a ^^^ packedSign 0 = packedSign a := BitVec.xor_zero
  rw [div64, f64Sign_decoded64, f64Sign_decoded64, hsign]
  simp [isZero64_decoded64]

theorem enc64_inf64 (s : BitVec 1) : enc64 (inf64 s) = raise .specialValueRejected := by
  rcases bit_cases s with h | h <;> rw [h] <;> decide

theorem divResponse_zero (a : Packed) : divResponse a 0 = raise .specialValueRejected := by
  rw [divResponse, arith, div64_decoded_zero]
  split_ifs
  · decide
  · exact enc64_inf64 _

/-- Settles O41: the two clauses of the divisor. -/
theorem divEncodesNearestQuotient : Obligations.DivEncodesNearestQuotient := by
  refine ⟨decode_requestWord 0xD,
    fun a b s hb => ⟨div64 (decoded64 a) (decoded64 b), ?_, exec_eq_accept _ s⟩, fun a s => ?_⟩
  · rw [div64_decoded a b hb, ← div_value]
    exact round64_nearest _ _ _ (f64Magnitude_decoded64_pos hb) (quotient_bound a hb)
  · rw [exec_eq_accept, response, divResponse_zero]
    rfl

/-! ADD and MUL are commutative (43_arith.md R143, R145). -/

theorem sumSign_comm (x y : Binary64) : sumSign x y = sumSign y x := by
  rw [sumSign, sumSign, Int.add_comm, BitVec.and_comm]

theorem addResponse_comm (a b : Packed) : addResponse a b = addResponse b a := by
  rw [addResponse, addResponse, arith, arith, add64_decoded, add64_decoded, sumSign_comm, Int.add_comm]

theorem mulResponse_comm (a b : Packed) : mulResponse a b = mulResponse b a := by
  rw [mulResponse, mulResponse, arith, arith, mul64_decoded, mul64_decoded, BitVec.xor_comm, Nat.mul_comm]

/-- Settles O42, by the responses, which no state enters. -/
theorem addAndMulCommute : Obligations.AddAndMulCommute := by
  refine ⟨fun a b s => ?_, fun a b s => ?_⟩
  · rw [exec_eq_accept, exec_eq_accept, response, response, addResponse_comm]
  · rw [exec_eq_accept, exec_eq_accept, response, response, mulResponse_comm]

/-! Rounding an exact value that is a binary64 already changes nothing, and a common factor does not matter. -/

/-- The grid at a magnitude is the one that leaves 53 significant bits (00_scope.md R12). -/
theorem gridShift_eq {q g : ℕ} (h1 : q < 2 ^ (53 + g)) (h2 : g = 0 ∨ 2 ^ (52 + g) ≤ q) : gridShift q = g := by
  obtain ⟨h3, h4⟩ := gridShift_spec q
  have hle : ∀ {m n : ℕ}, q < 2 ^ (53 + m) → (n = 0 ∨ 2 ^ (52 + n) ≤ q) → n ≤ m := by
    intro m n hm hn
    rcases hn with rfl | hn
    · exact Nat.zero_le m
    · have := (Nat.pow_lt_pow_iff_right one_lt_two).mp (hn.trans_lt hm)
      omega
  exact le_antisymm (hle h1 h4) (hle h3 h2)

theorem nearestEven_mul_self (n : ℕ) {d : ℕ} (hd : 0 < d) : nearestEven (n * d) d = n := by
  rw [nearestEven, Nat.mul_mod_left, if_pos (by omega), Nat.mul_div_cancel _ hd]

theorem nearestEven_mul_mul (n d : ℕ) {k : ℕ} (hk : 0 < k) : nearestEven (n * k) (d * k) = nearestEven n d := by
  simp only [nearestEven, Nat.mul_mod_mul_right, Nat.mul_div_mul_right _ _ hk, ← Nat.mul_assoc, Nat.mul_lt_mul_right hk]

theorem roundMagnitude_mul_mul (num den : ℕ) {k : ℕ} (hk : 0 < k) :
    roundMagnitude (num * k) (den * k) = roundMagnitude num den := by
  rw [roundMagnitude, Nat.mul_div_mul_right _ _ hk, Nat.mul_right_comm, nearestEven_mul_mul _ _ hk, roundMagnitude]

theorem round64_mul_mul (s : BitVec 1) (num den : ℕ) {k : ℕ} (hk : 0 < k) :
    round64 s (num * k) (den * k) = round64 s num den := by
  rw [round64, roundMagnitude_mul_mul _ _ hk, round64]

/-- A significand of 53 bits on a finite grid is kept as it is. -/
theorem roundMagnitude_of_grid {n g : ℕ} (hn : n < 2 ^ 53) (hg : g = 0 ∨ 2 ^ 52 ≤ n) (hfin : g ≤ 2045) :
    roundMagnitude (n * 2 ^ g) 1 = g * 2 ^ 52 + n := by
  have hshift : gridShift (n * 2 ^ g) = g := by
    refine gridShift_eq ?_ (hg.imp_right fun h => ?_)
    · rw [pow_add]
      exact Nat.mul_lt_mul_of_pos_right hn (two_pow_pos g)
    · rw [pow_add]
      exact Nat.mul_le_mul_right _ h
  rw [roundMagnitude, Nat.div_one, hshift, Nat.one_mul, nearestEven_mul_self _ (two_pow_pos g)]
  omega

theorem roundMagnitude_fieldMagnitude {e m : ℕ} (he : e ≤ 2046) (hm : m < 2 ^ 52) :
    roundMagnitude (fieldMagnitude 52 e m) 1 = e * 2 ^ 52 + m := by
  rw [fieldMagnitude]
  split_ifs with h
  · simpa [h] using roundMagnitude_of_grid (n := m) (g := 0) (by omega) (.inl rfl) (by omega)
  · rw [roundMagnitude_of_grid (by omega) (.inr (Nat.le_add_right _ _)) (by omega)]
    omega

/-- Rounding the value of a finite binary64 gives it back. -/
theorem round64_f64Magnitude {d : Binary64} (h : (f64Exp d).toNat ≤ 2046) :
    round64 (f64Sign d) (f64Magnitude d) 1 = d := by
  have hm := (f64Mant d).isLt
  rw [round64, f64Magnitude, roundMagnitude_fieldMagnitude h hm]
  obtain ⟨hs, he, hm'⟩ := signed64_fields (f64Sign d) (rest := (f64Exp d).toNat * 2 ^ 52 + (f64Mant d).toNat) (by omega)
  exact binary64_ext hs (by omega) (by omega)

theorem round64_decoded64 (p : Packed) : round64 (packedSign p) (f64Magnitude (decoded64 p)) 1 = decoded64 p := by
  have hexp := f64Exp_decoded64_le p
  rw [← f64Sign_decoded64, round64_f64Magnitude (by omega)]

/-! The corner cases of ADD and SUB (43_arith.md R143, R144). -/

/-- Adding zero leaves the sign of the other operand, a zero included. -/
theorem sumSign_decoded64_zero (a : Packed) : sumSign (decoded64 a) (decoded64 0) = packedSign a := by
  by_cases h : a = 0
  · rw [h]
    decide
  · have hpos := f64Magnitude_decoded64_pos h
    rw [sumSign, show f64Scaled (decoded64 0) = 0 from rfl, Int.add_zero, f64Scaled, f64Sign_decoded64]
    rcases bit_cases (packedSign a) with hs | hs <;> rw [hs]
    · rw [if_neg (show ¬(0 : BitVec 1) = 1 by decide), if_neg (by omega), if_neg (by omega)]
    · rw [if_pos rfl, if_pos (by omega)]

theorem add64_decoded64_zero (a : Packed) : add64 (decoded64 a) (decoded64 0) = decoded64 a := by
  rw [add64_decoded, sumSign_decoded64_zero, show f64Scaled (decoded64 0) = 0 from rfl, Int.add_zero, f64Scaled_natAbs,
    round64_decoded64]

theorem addResponse_zero (a : Packed) : addResponse a 0 = enc64 (decoded64 a) := by
  rw [addResponse, arith, add64_decoded64_zero]

/-- A canonical pattern is not the sign-only one. -/
theorem ne_signOnly_of_canonical {p : Packed} (h : isCanonical p = true) : p ≠ 0x800000000000 := by
  rintro rfl
  exact absurd h (by decide)

theorem addResponse_negated {a : Packed} (h : a ≠ 0x800000000000) : addResponse a (negated a) = ok (0 : Packed) := by
  have hsum : f64Scaled (decoded64 a) + f64Scaled (decoded64 (negated a)) = 0 := by
    rw [f64Scaled_decoded64, f64Scaled_decoded64, packedScaled_negated h, ← add_mul, add_neg_cancel, zero_mul]
  rw [addResponse, arith, add64_decoded, hsum, Int.natAbs_zero, round64_zero, enc64_zero]

theorem subResponse_self (a : Packed) : subResponse a a = ok (0 : Packed) := by
  rw [subResponse, arith, sub64_decoded, neg64_scaled, add_neg_cancel, Int.natAbs_zero, round64_zero, enc64_zero]

/-- Where NEG flips the sign bit of a value, so does the binary64 subtraction. -/
theorem neg64_decoded64 {p : Packed} (h0 : p ≠ 0) (h : p ≠ 0x800000000000) :
    neg64 (decoded64 p) = decoded64 (negated p) := by
  have hn : negated p ≠ 0 := mt (negated_eq_zero_iff p).mp (not_or.mpr ⟨h0, h⟩)
  obtain ⟨hexp, hmant, hsign⟩ := neg64_fields (decoded64 p)
  refine binary64_ext ?_ ?_ ?_
  · rw [hsign, f64Sign_decoded64, f64Sign_decoded64, packedSign_negated h0]
  · rw [hexp, f64Exp_decoded64 p h0, f64Exp_decoded64 _ hn, packedExp_negated]
  · rw [hmant, f64Mant_decoded64, f64Mant_decoded64, packedMant_negated]

theorem subResponse_zero_left {a : Packed} (h : isCanonical a = true) : subResponse 0 a = negResponse a := by
  by_cases h0 : a = 0
  · rw [h0, subResponse_self]
    rfl
  · calc subResponse 0 a
      _ = addResponse 0 (negated a) := by
        rw [subResponse, arith, sub64, neg64_decoded64 h0 (ne_signOnly_of_canonical h), addResponse, arith]
      _ = enc64 (decoded64 (negated a)) := by rw [addResponse_comm, addResponse_zero]
      _ = negResponse a := enc64_decoded64_of_canonical (isCanonical_negated h)

/-- Settles O43, case by case: `a` itself, which ENC64 takes or refuses, a zero, and the negated pattern. -/
theorem addSubCornerCases : Obligations.AddSubCornerCases := by
  refine fun a s => ⟨fun h => ?_, fun h => ?_, fun h => ?_, ?_, fun h => ?_⟩
  · exact exec_of_response_ok (i := .add a 0) ((addResponse_zero a).trans (enc64_decoded64_of_canonical h)) s
  · exact exec_of_response_rangeOverflow (i := .add a 0)
      ((addResponse_zero a).trans (enc64_decoded64_of_not_canonical h)) s
  · exact exec_of_response_ok (i := .add a (negated a)) (addResponse_negated (ne_signOnly_of_canonical h)) s
  · exact exec_of_response_ok (i := .sub a a) (subResponse_self a) s
  · rw [exec_eq_accept, exec_eq_accept, response, response, subResponse_zero_left h]

/-! The corner cases of MUL and DIV (43_arith.md R145, R146). -/

theorem f64Magnitude_decoded64_zero : f64Magnitude (decoded64 0) = 0 := rfl

theorem mulResponse_zero (a : Packed) : mulResponse a 0 = ok (0 : Packed) := by
  rw [mulResponse, arith, mul64_decoded, f64Magnitude_decoded64_zero, Nat.mul_zero, round64_zero, enc64_zero]

theorem divResponse_zero_left {a : Packed} (h : a ≠ 0) : divResponse 0 a = ok (0 : Packed) := by
  rw [divResponse, arith, div64_decoded 0 a h, f64Magnitude_decoded64_zero, Nat.zero_mul, round64_zero, enc64_zero]

/-- The magnitude of 1.0. -/
theorem f64Magnitude_decoded64_one : f64Magnitude (decoded64 0x81) = 2 ^ 1074 := by
  rw [f64Magnitude_decoded64, show packedMagnitude 0x81 = 2 ^ 168 by decide, ← pow_add]

/-- The operand's magnitude is a common factor of dividend and divisor, so `a / a` rounds like `1 / 1`. -/
theorem div64_decoded64_self {a : Packed} (h : a ≠ 0) : div64 (decoded64 a) (decoded64 a) = decoded64 0x81 := by
  have hone := round64_decoded64 0x81
  rw [show packedSign 0x81 = 0#1 by decide, f64Magnitude_decoded64_one] at hone
  rw [div64_decoded a a h, BitVec.xor_self, Nat.mul_comm]
  nth_rw 2 [← Nat.one_mul (f64Magnitude (decoded64 a))]
  rw [round64_mul_mul _ _ _ (f64Magnitude_decoded64_pos h), hone]

theorem divResponse_self {a : Packed} (h : a ≠ 0) : divResponse a a = ok (0x81 : Packed) := by
  rw [divResponse, arith, div64_decoded64_self h, enc64_decoded64_of_canonical (by decide)]

/-- Settles O44, case by case: a zero magnitude rounds to a zero, and `a / a` to 1.0. -/
theorem mulDivCornerCases : Obligations.MulDivCornerCases := by
  refine fun a s => ⟨?_, ?_, fun h => ?_, fun h => ?_⟩
  · exact exec_of_response_ok (i := .mul a 0) (mulResponse_zero a) s
  · exact exec_of_response_ok (i := .mul 0 a) ((mulResponse_comm 0 a).trans (mulResponse_zero a)) s
  · exact exec_of_response_ok (i := .div 0 a) (divResponse_zero_left h) s
  · exact exec_of_response_ok (i := .div a a) (divResponse_self h) s

/-! A sum that is rounded up to a power of two before it is truncated (43_arith.md R149). -/

/-- 61 ones are nearer to the next power of two than to 53 ones. -/
theorem roundMagnitude_61_ones : roundMagnitude ((2 ^ 61 - 1) * 2 ^ 1014) 1 = 1024 * 2 ^ 52 := by
  have hshift : gridShift ((2 ^ 61 - 1) * 2 ^ 1014) = 8 + 1014 := by
    refine gridShift_eq ?_ (.inr ?_)
    · rw [← add_assoc, pow_add]
      exact Nat.mul_lt_mul_of_pos_right (by decide) (two_pow_pos _)
    · rw [← add_assoc, pow_add]
      exact Nat.mul_le_mul_right _ (by decide)
  rw [roundMagnitude, Nat.div_one, hshift, Nat.one_mul, pow_add, nearestEven_mul_mul _ _ (two_pow_pos _)]
  decide

theorem sumSign_of_pos {x y : Binary64} (h : 0 < f64Scaled x + f64Scaled y) : sumSign x y = 0 := by
  rw [sumSign, if_neg h.not_gt, if_neg h.ne']

/-- The exact sum is 61 ones, and rounds up to 2.0. -/
theorem add64_rounds_up_to_two : add64 (decoded64 0x7FFFFFFFFF81) (decoded64 0x7FFFF8000059) = 0x4000000000000000 := by
  have hpacked : packedScaled 0x7FFFFFFFFF81 + packedScaled 0x7FFFF8000059 = (2 ^ 61 - 1) * 2 ^ 108 := by decide
  have hsum : f64Scaled (decoded64 0x7FFFFFFFFF81) + f64Scaled (decoded64 0x7FFFF8000059) =
      ((2 ^ 61 - 1) * 2 ^ 1014 : ℕ) := by
    rw [f64Scaled_decoded64, f64Scaled_decoded64, ← add_mul, hpacked, mul_assoc, ← pow_add, Nat.cast_mul, Nat.cast_pow,
      Nat.cast_ofNat]
    rfl
  have hpos : 0 < f64Scaled (decoded64 0x7FFFFFFFFF81) + f64Scaled (decoded64 0x7FFFF8000059) := by
    rw [hsum]
    exact Nat.cast_pos.mpr (Nat.mul_pos (by decide) (two_pow_pos _))
  rw [add64_decoded, sumSign_of_pos hpos, hsum, Int.natAbs_natCast, round64, roundMagnitude_61_ones]
  decide

/-- Settles O45: the exact sum by the values of the operands, and its answer by the encoding of 2.0. -/
theorem addRoundsTwice : Obligations.AddRoundsTwice := by
  refine ⟨?_, fun s => exec_of_response_ok (i := .add _ _) (p := 0x82) ?_ s⟩
  · rw [val, val, show packedScaled 0x7FFFFFFFFF81 = (2 ^ 40 - 1) * 2 ^ 129 by decide,
      show packedScaled 0x7FFFF8000059 = (2 ^ 40 - 2 ^ 19) * 2 ^ 89 by decide]
    norm_num
  · rw [response, addResponse, arith, add64_rounds_up_to_two]
    decide

end Sys2Proof.Machine
end

section
/-! PROOFS. A compound assignment by a host that waits for each response (43_arith.md R151, 70_reset_and_hazards.md R196). -/

namespace Sys2Proof.Machine

@[simp] theorem Request.response_v (r : Request) : r.response.v = true := rfl

/-- The host presents a request and then nothing: LATENCY edges later the request's response is in OUT. -/
theorem run_latency_shows_response (r : Request) (s : State) :
    ∃ t, Host.Core.run core s.latency (s.withPort [r.cycle]) = .next t ∧ t.out = r.response ∧ t.port = [] := by
  have hstep := step_run (s := s.withPort [r.cycle]) rfl r.cycle_rst
  rw [cycleEntry_request] at hstep
  rw [State.latency, core_run_succ _ _ hstep]
  obtain hpipe | ⟨pre, x, hpipe⟩ := List.eq_nil_or_concat' s.pipe
  · rw [hpipe]
    refine ⟨_, rfl, ?_, rfl⟩
    show nextOut s.out (incoming _ s.pipe) = _
    rw [hpipe, incoming_nil, nextOut_of_valid r.response_v]
  · rw [hpipe, List.length_append, List.length_singleton]
    refine run_until_shown pre.length _ [] [] [] pre _ rfl (.inr ⟨rfl, Nat.zero_le _⟩) nofun r.response_v ?_ rfl
    show shift _ s.pipe = _
    rw [hpipe, shift_concat, List.nil_append]

theorem issue_cycle (r : Request) (s : State) : ∃ t, issue r.cycle s = some t ∧ t.out = r.response := by
  obtain ⟨t, hrun, hout, -⟩ := run_latency_shows_response r s
  have hvalid : t.rspValid = true := (congrArg Slot.v hout).trans r.response_v
  refine ⟨t, ?_, hout⟩
  rw [issue, hrun]
  exact if_pos hvalid

/-- A line that comes to a request records its response and stores the result, in whatever state the block is. -/
theorem HostState.runLine_of_request {h : HostState} {l : HostLine} {r : Request} {dest : Option VarName}
    (hl : h.action l = some (.request r dest)) : ∃ t, h.runLine l =
      some (({ h with block := t, outcomes := (r.response.data, r.response.status) :: h.outcomes } : HostState).store dest
        r.response.data r.response.status) := by
  obtain ⟨t, hissue, hout⟩ := issue_cycle r h.block
  refine ⟨t, ?_⟩
  rw [HostState.runLine, hl, Option.bind_some]
  show h.runRequest r dest = _
  rw [HostState.runRequest, hissue, ← hout]
  rfl

/-- Settles O52: the line comes to one request, whose result is stored when its status has code 0. -/
theorem compoundAssignmentReplacesOnlyOnOk : Obligations.CompoundAssignmentReplacesOnlyOnOk := by
  intro h x m v b hm hx
  obtain ⟨t, hline⟩ := HostState.runLine_of_request (HostState.action_compound b hm hx)
  refine ⟨_, hline, ?_, fun y hy => ?_, HostState.store_outcomes _ _ _ _⟩
  · simp only [HostState.store_get, true_and, apply_ite some]
    exact if_congr (Status.code_eq_zero _) rfl hx
  · exact (HostState.store_get _ _ _ _ _).trans (if_neg fun hyx => hy hyx.1)

end Sys2Proof.Machine
end

section
/-! PROOFS. The range constants (44_constants.md R160 to R164): their exact values, and MIN and MAX as the ends of the canonical
magnitudes, by the bit-level order. -/

namespace Sys2Proof.Machine

/-! MIN, MAX and EPSILON as values (44_constants.md R160 to R162). -/

theorem abs_val (p : Packed) : |val p| = (packedMagnitude p : ℚ) / 2 ^ 168 := by
  rw [val_eq_sign_mul_magnitude, abs_mul, abs_neg_one_pow, one_mul, abs_of_nonneg (by positivity)]

theorem abs_val_of_packedSign_zero {p : Packed} (h : packedSign p = 0) : |val p| = val p := by
  rw [abs_val, val, packedScaled, if_neg (by rw [h]; decide), Int.cast_natCast]

/-- The value of a positive pattern from the numbers in its fields (10_state.md R30). -/
theorem val_of_positive_fields {p : Packed} {m e : ℕ} (hp : p ≠ 0) (hs : packedSign p = 0)
    (hm : (packedMant p).toNat = m) (he : (packedExp p).toNat = e) :
    val p = (1 + (m : ℚ) / 2 ^ 39) * 2 ^ ((e : ℤ) - 129) := by
  rw [← abs_val_of_packedSign_zero hs, abs_val_of_ne_zero hp, hm, he]

/-- The significand is 1. -/
theorem val_packedMIN : val packedMIN = (2 : ℚ) ^ (-128 : ℤ) := by
  rw [val_of_positive_fields (m := 0) (e := 1) (by decide) rfl rfl rfl]
  norm_num

/-- The significand is 2 less one unit in the last place, 2^-39. -/
theorem val_packedMAX : val packedMAX = 2 ^ 127 - 2 ^ 87 := by
  rw [val_of_positive_fields (m := 2 ^ 39 - 1) (e := 255) (by decide) rfl rfl rfl]
  norm_num

/-- The significand is 1. -/
theorem val_packedEPSILON : val packedEPSILON = (2 : ℚ) ^ (-39 : ℤ) := by
  rw [val_of_positive_fields (m := 0) (e := 90) (by decide) rfl rfl rfl]
  norm_num

/-- Settles O49: the patterns from their fields, the values from R30. -/
theorem rangeConstants : Obligations.RangeConstants :=
  ⟨by decide, val_packedMIN, by decide, val_packedMAX, by decide, val_packedEPSILON⟩

/-! The range law (44_constants.md R164): magnitudes are in the order of the keys of 42_compare.md R126. -/

theorem abs_val_lt_abs_val_iff_orderKey (a b : Packed) : |val a| < |val b| ↔ orderKey a < orderKey b := by
  rw [abs_val, abs_val, div_lt_div_iff_of_pos_right (by positivity), Nat.cast_lt, ← magnitudeOfKey_orderKey,
    ← magnitudeOfKey_orderKey, magnitudeOfKey_strictMono.lt_iff_lt]

theorem abs_val_lt_packedMIN_iff (p : Packed) : |val p| < val packedMIN ↔ orderKey p < orderKey packedMIN := by
  rw [← abs_val_of_packedSign_zero (p := packedMIN) rfl, abs_val_lt_abs_val_iff_orderKey]

theorem packedMAX_lt_abs_val_iff (p : Packed) : val packedMAX < |val p| ↔ orderKey packedMAX < orderKey p := by
  rw [← abs_val_of_packedSign_zero (p := packedMAX) rfl, abs_val_lt_abs_val_iff_orderKey]

/-- MIN has the first key of exponent field 1. -/
theorem orderKey_packedMIN : orderKey packedMIN = 2 ^ 39 + 1 := by decide

/-- MAX has the last key of all. -/
theorem orderKey_packedMAX : orderKey packedMAX = 2 ^ 47 := by decide

theorem orderKey_le_packedMAX (p : Packed) : orderKey p ≤ orderKey packedMAX := by
  rw [orderKey_packedMAX]
  by_cases h : p = 0
  · rw [(orderKey_eq_zero p).mpr h]
    exact Nat.zero_le _
  · have hexp := (packedExp p).isLt
    have hmant := (packedMant p).isLt
    rw [orderKey_of_ne_zero h]
    omega

/-- The mantissa is below one step of the exponent field, so exponent field 0 is what puts a nonzero pattern below MIN. -/
theorem orderKey_lt_packedMIN_iff {p : Packed} (h : p ≠ 0) : orderKey p < orderKey packedMIN ↔ isCanonical p = false := by
  have hmant := (packedMant p).isLt
  rw [orderKey_packedMIN, orderKey_of_ne_zero h, ← Bool.not_eq_true, isCanonical_iff, or_iff_right h]
  omega

theorem abs_val_le_packedMAX (p : Packed) : |val p| ≤ val packedMAX :=
  not_lt.mp ((packedMAX_lt_abs_val_iff p).not.mpr (orderKey_le_packedMAX p).not_gt)

/-- Among the nonzero patterns, MIN divides the canonical ones from the others. -/
theorem abs_val_lt_packedMIN_iff_not_canonical {p : Packed} (h : p ≠ 0) :
    |val p| < val packedMIN ↔ isCanonical p = false :=
  (abs_val_lt_packedMIN_iff p).trans (orderKey_lt_packedMIN_iff h)

theorem packedMIN_le_abs_val_of_canonical {p : Packed} (h : p ≠ 0) (hc : isCanonical p = true) :
    val packedMIN ≤ |val p| := by
  rw [← not_lt, abs_val_lt_packedMIN_iff_not_canonical h, Bool.not_eq_false]
  exact hc

/-- Settles O50: MIN and MAX bound the magnitudes, and a positive value is its own magnitude. -/
theorem rangeLaw : Obligations.RangeLaw := by
  intro p h
  refine ⟨fun hc => ⟨packedMIN_le_abs_val_of_canonical h hc, abs_val_le_packedMAX p⟩,
    (abs_val_lt_packedMIN_iff_not_canonical h).mpr, fun hc hs s => ?_⟩
  obtain ⟨-, -, hcmplt, hcmpgt⟩ := orderingComparisonResults
  have hmin := packedMIN_le_abs_val_of_canonical h hc
  have hmax := abs_val_le_packedMAX p
  rw [abs_val_of_packedSign_zero hs] at hmin hmax
  rw [hcmplt, hcmpgt, if_neg hmin.not_gt, if_neg hmax.not_gt]
  exact ⟨rfl, rfl⟩

end Sys2Proof.Machine
end

section
/-! PROOFS. Exceptions (60_exceptions.md): every step keeps the responses legal, and the statuses each operation can give. -/

namespace Sys2Proof.Machine

/-! Each of the three edges a step can be keeps a state legal (60_exceptions.md R170, R177). -/

theorem State.legal_withPort {s : State} (hs : s.legal) (cs : List PortIn) : (s.withPort cs).legal := hs

/-- OUT and PIPE after a reset edge are those of the reset state of the same LATENCY. -/
theorem State.resetEdge_legal (s : State) : s.resetEdge.legal := State.resetAt_legal s.latency

theorem State.legal_accept {s : State} (hs : s.legal) (i : Instr) : (s.accept (response i)).legal :=
  legal_clockEdge hs fun _ => response_entry_legal i

/-- The entry of an edge with no request is not valid, so its free status and data need not be legal. -/
theorem State.legal_idleEdge {s : State} (hs : s.legal) : s.idleEdge.legal :=
  legal_clockEdge hs fun hv => absurd hv Bool.false_ne_true

/-- Settles O16: a legal state is legal after each of the three edges a step can be. -/
theorem stepKeepsResponsesLegal : Obligations.StepKeepsResponsesLegal := by
  intro s t hs h
  obtain ⟨c, cs, -, -, rfl⟩ | ⟨c, cs, -, -, -, rfl⟩ | ⟨-, rfl⟩ := step_cases h
  · exact State.resetEdge_legal _
  · exact State.legal_accept (State.legal_withPort hs cs) _
  · exact State.legal_idleEdge (State.legal_withPort hs _)

/-! The binary64 result of ADD, SUB and MUL, and of DIV by a divisor that is not zero, is finite (43_arith.md R148). -/

theorem isFinite64_add64_decoded64 (a b : Packed) : isFinite64 (add64 (decoded64 a) (decoded64 b)) = true := by
  rw [add64_decoded]
  exact (round64_sum_nearest (f64Magnitude_decoded64_lt a) (f64Magnitude_decoded64_lt b)).1

theorem isFinite64_sub64_decoded64 (a b : Packed) : isFinite64 (sub64 (decoded64 a) (decoded64 b)) = true := by
  have hb : f64Magnitude (neg64 (decoded64 b)) < 2 ^ 1201 := by
    rw [f64Magnitude_neg64]
    exact f64Magnitude_decoded64_lt b
  rw [sub64_decoded]
  exact (round64_sum_nearest (f64Magnitude_decoded64_lt a) hb).1

theorem isFinite64_mul64_decoded64 (a b : Packed) : isFinite64 (mul64 (decoded64 a) (decoded64 b)) = true := by
  rw [mul64_decoded]
  exact (round64_fields _ _ _ (two_pow_pos 1074) (product_bound a b)).1

theorem isFinite64_div64_decoded64 (a : Packed) {b : Packed} (hb : b ≠ 0) :
    isFinite64 (div64 (decoded64 a) (decoded64 b)) = true := by
  rw [div64_decoded a b hb]
  exact (round64_fields _ _ _ (f64Magnitude_decoded64_pos hb) (quotient_bound a hb)).1

/-- ENC64 rejects only Infinity and NaN as special (60_exceptions.md R172). -/
theorem enc64_status_of_finite {d : Binary64} (h : isFinite64 d = true) :
    (enc64 d).status = .ok ∨ (enc64 d).status = .rangeOverflow := by
  unfold enc64
  split_ifs with h0 hspecial
  · exact .inl rfl
  · exact absurd hspecial (bne_iff_ne.mp h)
  · exact packInBand_status _ _ _

/-- The same as codes on `rsp_status` (60_exceptions.md R170). -/
theorem enc64_entry_status_of_finite {d : Binary64} (h : isFinite64 d = true) :
    (enc64 d).entry.status = 0 ∨ (enc64 d).entry.status = 1 :=
  (enc64_status_of_finite h).imp (congrArg Status.code) (congrArg Status.code)

theorem divResponse_entry_status (a b : Packed) :
    if b = 0 then (divResponse a b).entry.status = 2
    else (divResponse a b).entry.status = 0 ∨ (divResponse a b).entry.status = 1 := by
  split_ifs with hb
  · rw [hb, divResponse_zero]
    rfl
  · exact enc64_entry_status_of_finite (isFinite64_div64_decoded64 a hb)

/-- Settles O46: ADD, SUB, MUL and DIV end in ENC64 of a finite result but for a zero divisor; every other operation has the
statuses of its own branches. -/
theorem statusesOfEachOperation : Obligations.StatusesOfEachOperation := by
  intro i
  refine ⟨(response i).entry, exec_eq_accept i, ?_⟩
  cases i with
  | enc32 f => exact (enc32_status f).imp (congrArg Status.code) (.imp (congrArg Status.code) (congrArg Status.code))
  | enc64 d => exact (enc64_status d).imp (congrArg Status.code) (.imp (congrArg Status.code) (congrArg Status.code))
  | dec32 p => exact (dec32_status p).imp (congrArg Status.code) (congrArg Status.code)
  | add a b => exact enc64_entry_status_of_finite (isFinite64_add64_decoded64 a b)
  | sub a b => exact enc64_entry_status_of_finite (isFinite64_sub64_decoded64 a b)
  | mul a b => exact enc64_entry_status_of_finite (isFinite64_mul64_decoded64 a b)
  | div a b => exact divResponse_entry_status a b
  | dec64 | classify | pos | neg | cmp | cmplt | cmpgt => rfl
  | reservedE | reservedF => rfl

end Sys2Proof.Machine
end

section
/-! PROOFS. Reset and hazards (70_reset_and_hazards.md R190, R196): a reset edge leaves nothing in flight, and two compound
assignments whose reads both come before either store may lose an update. -/

namespace Sys2Proof.Machine

theorem due_eq_nil_of_no_request {cs : List PortIn} (h : ∀ d ∈ cs, d.reqValid = false) : due cs = [] := by
  rw [due, List.filter_eq_nil_iff.mpr fun d hd => Bool.eq_false_iff.mp (h d hd), List.map_nil]

/-- With nothing in flight and no request presented, no response is shown. -/
theorem observed_eq_nil_of_no_request {s : State} {cs rest : List PortIn} (hs : s.pending = []) (hp : s.port = cs ++ rest)
    (hcs : ∀ d ∈ cs, d.rst = false ∧ d.reqValid = false) : observed cs.length s = [] := by
  obtain ⟨t, -, ht⟩ := responsesLeaveInRequestOrder s cs rest hp fun d hd => (hcs d hd).1
  rw [hs, due_eq_nil_of_no_request fun d hd => (hcs d hd).2] at ht
  exact (List.append_eq_nil_iff.mp ht).1

/-- Settles O14: the reset edge shows nothing and leaves nothing in flight. -/
theorem resetDiscardsRequestsInFlight : Obligations.ResetDiscardsRequestsInFlight := by
  intro s c cs rest hp hr hcs
  rw [observed_succ _ (step_reset hp hr), State.resetEdge_out, Slot.clear_v,
    observed_eq_nil_of_no_request (State.pending_resetEdge _) rfl hcs]
  rfl

/-! The events that bring a request from its read to its store, each as a step of the host relation (log 12). -/

theorem HostSystem.exists_run_of_reachable {h t : HostSystem} (ht : Relation.ReflTransGen HostSystem.canStep h t) :
    ∃ es, h.run es = some t := by
  induction ht using Relation.ReflTransGen.head_induction_on with
  | refl => exact ⟨[], rfl⟩
  | head hstep _ ih =>
    obtain ⟨e, he⟩ := hstep
    obtain ⟨es, hes⟩ := ih
    exact ⟨e :: es, by rw [HostSystem.run, he, Option.bind_some, hes]⟩

theorem HostSystem.canStep_fetch {h : HostSystem} {k : Nat} {l : HostLine} {ls : List HostLine} {r : Request}
    {dest : Option VarName} (hk : h.agents[k]? = some ⟨l :: ls, .idle⟩) (hact : h.host.action l = some (.request r dest)) :
    h.canStep { h with agents := h.agents.set k ⟨ls, .ready r dest⟩ } :=
  ⟨.fetch k, by rw [HostSystem.event, HostSystem.fetch, hk]; simp only [hact, Option.map_some]⟩

theorem HostSystem.canStep_idle (h : HostSystem) : h.canStep (h.afterEdge PortIn.idle).receive :=
  ⟨.clock none, by rw [HostSystem.event, HostSystem.clock, HostSystem.edge_run h rfl]; rfl⟩

theorem HostSystem.canStep_present {h : HostSystem} {k : Nat} {ls : List HostLine} {r : Request} {dest : Option VarName}
    (hk : h.agents[k]? = some ⟨ls, .ready r dest⟩) :
    h.canStep ((h.present k ls r dest).afterEdge r.cycle).receive := by
  refine ⟨.clock (some k), ?_⟩
  rw [HostSystem.event, HostSystem.clock, hk]
  simp only [HostSystem.edge_run _ r.cycle_rst]
  rfl

theorem HostSystem.canStep_store {h : HostSystem} {k : Nat} {ls : List HostLine} {r : Request} {dest : Option VarName}
    {data : Data} {status : StatusCode} (hk : h.agents[k]? = some ⟨ls, .answered r dest data status⟩) :
    h.canStep { h with host := h.host.store dest data status, agents := h.agents.set k ⟨ls, .idle⟩ } :=
  ⟨.store k, by rw [HostSystem.event, HostSystem.store, hk]⟩

/-- A place set and then modified; past the list's end neither does anything. -/
theorem modify_set {α : Type} (l : List α) (k : Nat) (a : α) (f : α → α) : (l.set k a).modify k f = l.set k (f a) := by
  apply List.ext_getElem?
  intro j
  by_cases hkj : k = j
  · subst hkj
    simp [List.getElem?_set]
  · simp [hkj]

/-! One request alone in flight, until its response appears. -/

/-- `h` with the request of agent `k` alone in flight and the block in state `s`. -/
def HostSystem.inFlight (h : HostSystem) (k : Nat) (ls : List HostLine) (r : Request) (dest : Option VarName) (s : State) :
    HostSystem :=
  { host := { h.host with block := s }, agents := h.agents.set k ⟨ls, .waiting r dest⟩, owners := [k] }

/-- `h` with the request of agent `k` answered, its outcome recorded, and the block in state `s`. -/
def HostSystem.answered (h : HostSystem) (k : Nat) (ls : List HostLine) (r : Request) (dest : Option VarName) (s : State) :
    HostSystem :=
  { host := { h.host with block := s, outcomes := (r.response.data, r.response.status) :: h.host.outcomes }
    agents := h.agents.set k ⟨ls, .answered r dest r.response.data r.response.status⟩
    owners := [] }

/-- `h` after agent `k` has stored the result of its request, with the block in state `s`. -/
def HostSystem.completed (h : HostSystem) (k : Nat) (ls : List HostLine) (r : Request) (dest : Option VarName) (s : State) :
    HostSystem :=
  { host := ({ h.host with block := s, outcomes := (r.response.data, r.response.status) :: h.host.outcomes } :
      HostState).store dest r.response.data r.response.status
    agents := h.agents.set k ⟨ls, .idle⟩
    owners := [] }

section
variable {h : HostSystem} {k : Nat} {ls : List HostLine} {r : Request} {dest : Option VarName} {s : State}

theorem HostSystem.receive_inFlight_of_shown (ho : s.out = r.response) :
    (h.inFlight k ls r dest s).receive = h.answered k ls r dest s := by
  have hv : s.rspValid = true := congrArg Slot.v ho
  simp only [HostSystem.receive, HostSystem.inFlight, hv, if_true, modify_set, State.rspData, State.rspStatus, ho]
  rfl

theorem HostSystem.receive_inFlight_of_not_shown (ho : s.out.v = false) :
    (h.inFlight k ls r dest s).receive = h.inFlight k ls r dest s :=
  if_neg (Bool.eq_false_iff.mp ho)

/-- An edge that shows one response or keeps it in flight answers its agent or leaves it waiting. -/
theorem HostSystem.receive_inFlight_cases
    (hs : (if s.out.v then [s.out] else []) ++ s.pending = [r.response]) :
    (s.pending = [] ∧ (h.inFlight k ls r dest s).receive = h.answered k ls r dest s) ∨
      (s.pending = [r.response] ∧ (h.inFlight k ls r dest s).receive = h.inFlight k ls r dest s) := by
  cases hv : s.out.v
  · rw [hv] at hs
    exact .inr ⟨hs, HostSystem.receive_inFlight_of_not_shown hv⟩
  · rw [hv] at hs
    obtain ⟨ho, hpend⟩ := List.cons.inj hs
    exact .inl ⟨hpend, HostSystem.receive_inFlight_of_shown ho⟩

/-- An edge with no request adds one to the youngest stages that hold no response. -/
theorem take_pipe_blockAfter_idle {n : Nat} (hs : ∀ x ∈ s.pipe.take n, x.v = false) :
    ∀ x ∈ (blockAfter s PortIn.idle).pipe.take (n + 1), x.v = false := by
  intro x hx
  have hmem : x ∈ (unusedEntry s.bubbles :: s.pipe).take (n + 1) :=
    ((List.dropLast_prefix _).take (n + 1)).subset hx
  obtain rfl | hx := List.mem_cons.mp hmem
  · rfl
  · exact hs x hx

theorem State.pending_eq_nil (hs : ∀ x ∈ s.pipe, x.v = false) : s.pending = [] :=
  List.filter_eq_nil_iff.mpr fun x hx => Bool.eq_false_iff.mp (hs x (List.mem_reverse.mp hx))

/-- While nothing else is presented the response of the one request in flight appears: at the latest after as many edges as
there are stages that may hold it. -/
theorem HostSystem.inFlight_reaches_answered (m : Nat) : ∀ (s : State) (n : Nat), s.pipe.length = n + m →
    (∀ x ∈ s.pipe.take n, x.v = false) → s.pending = [r.response] →
    ∃ s', s'.pending = [] ∧
      Relation.ReflTransGen HostSystem.canStep (h.inFlight k ls r dest s) (h.answered k ls r dest s') := by
  induction m with
  | zero =>
    intro s n hlen hyoung hpend
    rw [List.take_of_length_le (i := n) hlen.le] at hyoung
    exact nomatch hpend.symm.trans (State.pending_eq_nil hyoung)
  | succ m ih =>
    intro s n hlen hyoung hpend
    have hedge := pending_blockAfter s PortIn.idle
    rw [due_idle, List.append_nil, hpend] at hedge
    have hstep : (h.inFlight k ls r dest s).canStep (h.inFlight k ls r dest (blockAfter s PortIn.idle)).receive :=
      HostSystem.canStep_idle _
    obtain ⟨hpend', hrec⟩ | ⟨hpend', hrec⟩ :=
      HostSystem.receive_inFlight_cases (h := h) (k := k) (ls := ls) (dest := dest) hedge
    · exact ⟨_, hpend', .single (hrec ▸ hstep)⟩
    · have hlen' : (blockAfter s PortIn.idle).pipe.length = (n + 1) + m := by
        rw [blockAfter, State.clockEdge_pipe, shift_length, State.withPort_pipe, hlen]
        omega
      obtain ⟨s', hs', hreach⟩ := ih _ (n + 1) hlen' (take_pipe_blockAfter_idle hyoung) hpend'
      exact ⟨s', hs', .head (hrec ▸ hstep) hreach⟩

/-- With nothing else in flight an agent with a request ready may present it, be answered and store the result, before any
other agent acts. -/
theorem HostSystem.ready_reaches_completed (hpend : h.host.block.pending = []) (hown : h.owners = [])
    (hk : h.agents[k]? = some ⟨ls, .ready r dest⟩) :
    ∃ s, s.pending = [] ∧ Relation.ReflTransGen HostSystem.canStep h (h.completed k ls r dest s) := by
  have hedge := pending_blockAfter h.host.block r.cycle
  rw [due_request, hpend, List.nil_append] at hedge
  have hpresent : h.canStep (h.inFlight k ls r dest (blockAfter h.host.block r.cycle)).receive := by
    have := HostSystem.canStep_present hk
    rwa [HostSystem.present, hown] at this
  have hanswered : ∃ s, s.pending = [] ∧ Relation.ReflTransGen HostSystem.canStep h (h.answered k ls r dest s) := by
    obtain ⟨hpend', hrec⟩ | ⟨hpend', hrec⟩ :=
      HostSystem.receive_inFlight_cases (h := h) (k := k) (ls := ls) (dest := dest) hedge
    · exact ⟨_, hpend', .single (hrec ▸ hpresent)⟩
    · obtain ⟨s, hs, hreach⟩ := HostSystem.inFlight_reaches_answered _ _ 0 (Nat.zero_add _).symm (by simp) hpend'
      exact ⟨s, hs, .head (hrec ▸ hpresent) hreach⟩
  obtain ⟨s, hs, hreach⟩ := hanswered
  have hstore : (h.answered k ls r dest s).canStep (h.completed k ls r dest s) := by
    have := HostSystem.canStep_store (h := h.answered k ls r dest s)
      (List.getElem?_set_self (List.getElem?_eq_some_iff.mp hk).1)
    rwa [HostSystem.answered, List.set_set] at this
  exact ⟨s, hs, hreach.tail hstore⟩

theorem HostSystem.completed_pending : (h.completed k ls r dest s).host.block.pending = s.pending := by
  rw [HostSystem.completed, HostState.store_block]

theorem HostSystem.completed_outcomes :
    (h.completed k ls r dest s).host.outcomes = (r.response.data, r.response.status) :: h.host.outcomes :=
  HostState.store_outcomes _ _ _ _

theorem HostSystem.completed_get_of_ok {x : VarName} (hok : r.response.status = 0) :
    (h.completed k ls r (some x) s).host.get x = some r.response.data :=
  (HostState.store_get _ _ _ _ _).trans (if_pos ⟨rfl, hok⟩)

theorem HostSystem.completed_getElem?_self {a : Agent} (hk : h.agents[k]? = some a) :
    (h.completed k ls r dest s).agents[k]? = some ⟨ls, .idle⟩ :=
  List.getElem?_set_self (List.getElem?_eq_some_iff.mp hk).1

theorem HostSystem.completed_getElem?_ne {j : Nat} (hkj : k ≠ j) :
    (h.completed k ls r dest s).agents[j]? = h.agents[j]? :=
  List.getElem?_set_ne hkj

end

/-- Two agents may both read their operands before either of them presents its request. -/
theorem HostSystem.reaches_both_ready {h : HostSystem} {i j : Nat} {l l' : HostLine} {ls ls' : List HostLine}
    {r r' : Request} {dest dest' : Option VarName} (hij : i ≠ j)
    (hi : h.agents[i]? = some ⟨l :: ls, .idle⟩) (hact : h.host.action l = some (.request r dest))
    (hj : h.agents[j]? = some ⟨l' :: ls', .idle⟩) (hact' : h.host.action l' = some (.request r' dest')) :
    ∃ h', h'.host = h.host ∧ h'.owners = h.owners ∧
      h'.agents[i]? = some ⟨ls, .ready r dest⟩ ∧ h'.agents[j]? = some ⟨ls', .ready r' dest'⟩ ∧
      Relation.ReflTransGen HostSystem.canStep h h' := by
  have hlti := (List.getElem?_eq_some_iff.mp hi).1
  have hltj := (List.getElem?_eq_some_iff.mp hj).1
  have hj₁ : (h.agents.set i ⟨ls, .ready r dest⟩)[j]? = some ⟨l' :: ls', .idle⟩ := (List.getElem?_set_ne hij).trans hj
  refine ⟨{ h with agents := (h.agents.set i ⟨ls, .ready r dest⟩).set j ⟨ls', .ready r' dest'⟩ }, rfl, rfl, ?_, ?_,
    .tail (.single (HostSystem.canStep_fetch hi hact)) (HostSystem.canStep_fetch hj₁ hact')⟩
  · exact (List.getElem?_set_ne hij.symm).trans (List.getElem?_set_self hlti)
  · exact List.getElem?_set_self (by rwa [List.length_set])

/-- Settles O55: both agents read, then the first completes, then the second, which stores the result of its read. -/
theorem unserializedAssignmentsMayLoseAnUpdate : Obligations.UnserializedAssignmentsMayLoseAnUpdate := by
  intro h i j ls ls' x m n v b c hpend hown hij hx hm hn hi hj hok
  obtain ⟨h', hhost, howners, hri, hrj, hread⟩ := HostSystem.reaches_both_ready hij
    hi (HostState.action_compound b hm hx) hj (HostState.action_compound c hn hx)
  obtain ⟨s₁, hs₁, hfirst⟩ := HostSystem.ready_reaches_completed (hhost ▸ hpend) (howners ▸ hown) hri
  have hrj₁ : (h'.completed i ls ⟨m.opcode, v, b⟩ (some x) s₁).agents[j]? = _ :=
    (HostSystem.completed_getElem?_ne hij).trans hrj
  obtain ⟨s₂, -, hsecond⟩ :=
    HostSystem.ready_reaches_completed (HostSystem.completed_pending.trans hs₁) rfl hrj₁
  obtain ⟨es, hes⟩ := HostSystem.exists_run_of_reachable ((hread.trans hfirst).trans hsecond)
  refine ⟨es, _, hes, ?_, ?_, ?_, ?_⟩
  · exact (HostSystem.completed_getElem?_ne hij.symm).trans (HostSystem.completed_getElem?_self hri)
  · exact HostSystem.completed_getElem?_self hrj₁
  · exact HostSystem.completed_get_of_ok ((Status.code_eq_zero _).mpr hok)
  · rw [HostSystem.completed_outcomes, HostSystem.completed_outcomes, hhost]
    rfl

end Sys2Proof.Machine
end
